-- ==== Sys2Proof/Word.lean ====
section
/-! DEFINITION. The bit-vector types of the block (00_scope.md R7, R8, R11). -/

namespace Sys2Proof

/-- A 32-bit value: an instruction word, a register value, the program counter, a memory address (R7, R8). -/
abbrev Word := BitVec 32

/-- The raw 16-bit immediate field (R7). -/
abbrev Imm16 := BitVec 16

/-- One byte of memory (R41). -/
abbrev Byte := BitVec 8

/-- A 5-bit register index, 0 to 31 (R7). -/
abbrev RegIdx := BitVec 5

end Sys2Proof
end

