-- ==== Sys2Proof/Machine/Flags.lean ====
section
/-! DEFINITION. The block has no flag and no condition code (10_state.md R28), so no flag is computed. What stands
here are the comparisons R28 names instead: those of slti and sltiu, whose result is a register value (R94, R95,
R100), and those of beq and bne, which decide a branch (R111, R112). -/

namespace Sys2Proof.Machine

/-- The comparison results are exactly 0x00000000 or 0x00000001 (R100). -/
def comparisonResult (b : Bool) : Word := if b then 0x00000001#32 else 0x00000000#32

/-- `<s` as a register value (R11, R94): two's-complement comparison. -/
def setLessSigned (a b : Word) : Word := comparisonResult (decide (a.toInt < b.toInt))

/-- `<u` as a register value (R11, R95): unsigned comparison. -/
def setLessUnsigned (a b : Word) : Word := comparisonResult (decide (a.toNat < b.toNat))

/-- The condition of beq (R111): all 32 bits are equal. -/
def wordsEqual (a b : Word) : Bool := a == b

/-- The condition of bne (R112). -/
def wordsDiffer (a b : Word) : Bool := a != b

end Sys2Proof.Machine
end

