-- ==== Sys2Proof/Config.lean ====
section
/-! DEFINITION. The named parameters of 00_scope.md R9 as plain data, and the constants the spec leaves
open, which have no body. The default of each parameter stands in Sys2Proof/Machine/Parameters.lean. -/

namespace Sys2Proof

/-- `BRANCH_DISP_MODE` (R9, R110): sign-extend before the shift by 2, or shift the raw field. -/
inductive BranchDispMode
  | sext
  | raw
deriving DecidableEq, Repr

/-- `ENDIAN` (R9, R44): the byte order in which the memory collaborator composes multi-byte values. -/
inductive Endian
  | little
  | big
deriving DecidableEq, Repr

/-- The three access widths N = 1, 2, 4 (R43: "No other width is moved by the block"). -/
inductive Width
  | byte
  | half
  | word
deriving DecidableEq, Repr

/-- The number n of bytes of an access (R43). -/
@[reducible] def Width.bytes : Width → Nat
  | .byte => 1
  | .half => 2
  | .word => 4

/-- The number n*8 of bits that `MemRead` returns and `MemWrite` receives (R40). -/
@[reducible] def Width.bits : Width → Nat
  | .byte => 8
  | .half => 16
  | .word => 32

/-- The `kind` a memory fault carries: the source's "address/alignment/access" (R170). -/
inductive MemFaultKind
  | address
  | alignment
  | access
deriving DecidableEq, Repr

/-- `MEM_ADMIT` (R9, R45): the spec's default policy, or whatever policy the memory collaborator has. -/
inductive AdmitPolicy
  /-- The default of R45: `a mod n = 0` for n = 2 and n = 4, true for n = 1. -/
  | aligned
  /-- Any other policy: `Config.collaboratorAdmission`, of which nothing is known. -/
  | collaborator
deriving DecidableEq, Repr

/-- `ASM_STYLE` (R9, R152, R154): the separators and the hexadecimal spelling of the text form. The order of
the operands, the parentheses of the memory form and the count of 4 digits are the source's and are fixed. -/
structure AsmStyle where
  /-- what stands between the mnemonic and the first operand -/
  gap : String
  /-- what stands between two operands -/
  separator : String
  /-- what stands before the 4 digits -/
  hexPrefix : String
  /-- whether the digits ten to fifteen are capitals -/
  upperCase : Bool
deriving DecidableEq, Repr

/-- The parameters of R9 that a step reads. They are fixed for a run: no instruction changes one. `MEM_INIT`,
`REG_INIT` and `RESET_PC` are arguments of `State.launch`, and `END_PC` is an argument of `run`. -/
structure Params where
  /-- `BRANCH_DISP_MODE` (R110) -/
  branchDispMode : BranchDispMode
  /-- `ENDIAN` (R44) -/
  endian : Endian
  /-- `MEM_ADMIT` (R45) -/
  memAdmit : AdmitPolicy
  /-- `PC_STEP` (R27) -/
  pcStep : Word
  /-- `REG_NAME` (R153): the display name of each register -/
  regNames : Vector String 32
  /-- `ASM_STYLE` (R152, R154) -/
  asmStyle : AsmStyle
deriving DecidableEq, Repr

namespace Config

/-- `MEM_ADMIT` of an unknown memory collaborator (R45: "its own alignment/fault policy"): none where it accepts
the access, else the kind of its fault. It has no body, so a claim about it holds for every policy.
[Log entry 4: DESIGN CHOICE, safe] -/
opaque collaboratorAdmission : Word → Width → Option MemFaultKind

/-- `TRAP_TARGET` (R177: "where control would go next is the parameter `TRAP_TARGET`, left OPEN").
[Log entry 9: DESIGN CHOICE, safe] -/
opaque trapTarget : Word

/-- The assembly text after a faulting step, a free value (R160: "any string (a draw)"), applied to the number
of steps the run took before the fault. [Log entry 10: DESIGN CHOICE, safe] -/
opaque faultText : Nat → String

end Config

end Sys2Proof
end

