-- ==== Sys2Proof/Syntax.lean ====
section
/-! DEFINITION. The eighteen instructions of the block (00_scope.md R3), one constructor for each row of
spec/opcode_table.json, in the table's order. -/

namespace Sys2Proof

/-- One decoded I-type instruction. Every constructor carries the three fields of the one format of the block
(30_encoding.md R60, R61): `rs` = bits [25:21], `rt` = bits [20:16], `imm` = bits [15:0]. -/
inductive Instr
  | lui   (rs rt : RegIdx) (imm : Imm16)
  | addi  (rs rt : RegIdx) (imm : Imm16)
  | addiu (rs rt : RegIdx) (imm : Imm16)
  | slti  (rs rt : RegIdx) (imm : Imm16)
  | sltiu (rs rt : RegIdx) (imm : Imm16)
  | andi  (rs rt : RegIdx) (imm : Imm16)
  | ori   (rs rt : RegIdx) (imm : Imm16)
  | xori  (rs rt : RegIdx) (imm : Imm16)
  | beq   (rs rt : RegIdx) (imm : Imm16)
  | bne   (rs rt : RegIdx) (imm : Imm16)
  | lb    (rs rt : RegIdx) (imm : Imm16)
  | lbu   (rs rt : RegIdx) (imm : Imm16)
  | lh    (rs rt : RegIdx) (imm : Imm16)
  | lhu   (rs rt : RegIdx) (imm : Imm16)
  | lw    (rs rt : RegIdx) (imm : Imm16)
  | sb    (rs rt : RegIdx) (imm : Imm16)
  | sh    (rs rt : RegIdx) (imm : Imm16)
  | sw    (rs rt : RegIdx) (imm : Imm16)
deriving DecidableEq, Repr

end Sys2Proof
end

