-- ==== Sys2Proof/WellFormed.lean ====
section
/-! DEFINITION. Which words and which instruction terms are instructions of the block (30_encoding.md R65 to
R67). Written without the decoder, from the list of opcode values, so that the decoder can be held against it. -/

namespace Sys2Proof

/-- The eighteen opcode values of R65, in the order of its table. -/
def opcodeValues : List Nat :=
  [0x04, 0x05, 0x08, 0x09, 0x0A, 0x0B, 0x0C, 0x0D, 0x0E, 0x0F] ++
  [0x20, 0x21, 0x23, 0x24, 0x25, 0x28, 0x29, 0x2B]

/-- The one check on a word: bits [31:26] are one of the eighteen opcodes (R66). -/
def Word.wellFormed (w : Word) : Bool :=
  opcodeValues.contains (w.toNat / 2 ^ 26)

/-- The one check on an instruction term, that each field fits its width of R61 (5, 5 and 16 bits). The types of
the fields already say it, and R67 adds no other condition ("no field value is reserved, no field must be
zero"), so no term fails it: there is no ill-formed instruction term, only ill-formed words. -/
def Instr.wellFormed : Instr → Bool
  | .lui rs rt imm | .addi rs rt imm | .addiu rs rt imm | .slti rs rt imm | .sltiu rs rt imm
  | .andi rs rt imm | .ori rs rt imm | .xori rs rt imm
  | .beq rs rt imm | .bne rs rt imm
  | .lb rs rt imm | .lbu rs rt imm | .lh rs rt imm | .lhu rs rt imm | .lw rs rt imm
  | .sb rs rt imm | .sh rs rt imm | .sw rs rt imm =>
    decide (rs.toNat < 32) && decide (rt.toNat < 32) && decide (imm.toNat < 65536)

end Sys2Proof
end

