-- ==== Sys2Proof/Decode.lean ====
section
/-! DEFINITION. The handlers and their opcodes (30_encoding.md R65), the fields of a word (R61), the decoder, the
encoder, and the byte order in which a word lies in memory (20_memory.md R44). -/

namespace Sys2Proof

/-- The executor path an instruction selects (R16 "handler"): one for each instruction of R3. -/
inductive Handler
  | lui | addi | addiu | slti | sltiu | andi | ori | xori
  | beq | bne
  | lb | lbu | lh | lhu | lw
  | sb | sh | sw
deriving DecidableEq, Repr

/-- The family of a handler as the case split of R85 names it. -/
inductive Family
  | alu
  | branch
  | load
  | store
deriving DecidableEq, Repr

/-- The handlers in the order of spec/opcode_table.json. -/
def Handler.all : List Handler :=
  [.lui, .addi, .addiu, .slti, .sltiu, .andi, .ori, .xori] ++ [.beq, .bne] ++
  [.lb, .lbu, .lh, .lhu, .lw] ++ [.sb, .sh, .sw]

/-- The primary opcode of each handler, bits [31:26] of its words (R65; spec/opcode_table.json). The values are
the spec's own general knowledge of MIPS32 (93_implementation_defined.md G2, decision D1). -/
def Handler.opcode : Handler → BitVec 6
  | .beq   => 0x04#6
  | .bne   => 0x05#6
  | .addi  => 0x08#6
  | .addiu => 0x09#6
  | .slti  => 0x0A#6
  | .sltiu => 0x0B#6
  | .andi  => 0x0C#6
  | .ori   => 0x0D#6
  | .xori  => 0x0E#6
  | .lui   => 0x0F#6
  | .lb    => 0x20#6
  | .lh    => 0x21#6
  | .lw    => 0x23#6
  | .lbu   => 0x24#6
  | .lhu   => 0x25#6
  | .sb    => 0x28#6
  | .sh    => 0x29#6
  | .sw    => 0x2B#6

/-- The family of each handler (R3, R85). -/
def Handler.family : Handler → Family
  | .lui | .addi | .addiu | .slti | .sltiu | .andi | .ori | .xori => .alu
  | .beq | .bne => .branch
  | .lb | .lbu | .lh | .lhu | .lw => .load
  | .sb | .sh | .sw => .store

/-- The instruction a handler runs on given fields. -/
def Handler.build (h : Handler) (rs rt : RegIdx) (imm : Imm16) : Instr :=
  match h with
  | .lui => .lui rs rt imm
  | .addi => .addi rs rt imm
  | .addiu => .addiu rs rt imm
  | .slti => .slti rs rt imm
  | .sltiu => .sltiu rs rt imm
  | .andi => .andi rs rt imm
  | .ori => .ori rs rt imm
  | .xori => .xori rs rt imm
  | .beq => .beq rs rt imm
  | .bne => .bne rs rt imm
  | .lb => .lb rs rt imm
  | .lbu => .lbu rs rt imm
  | .lh => .lh rs rt imm
  | .lhu => .lhu rs rt imm
  | .lw => .lw rs rt imm
  | .sb => .sb rs rt imm
  | .sh => .sh rs rt imm
  | .sw => .sw rs rt imm

/-- The handler of an instruction. -/
def Instr.handler : Instr → Handler
  | .lui _ _ _ => .lui
  | .addi _ _ _ => .addi
  | .addiu _ _ _ => .addiu
  | .slti _ _ _ => .slti
  | .sltiu _ _ _ => .sltiu
  | .andi _ _ _ => .andi
  | .ori _ _ _ => .ori
  | .xori _ _ _ => .xori
  | .beq _ _ _ => .beq
  | .bne _ _ _ => .bne
  | .lb _ _ _ => .lb
  | .lbu _ _ _ => .lbu
  | .lh _ _ _ => .lh
  | .lhu _ _ _ => .lhu
  | .lw _ _ _ => .lw
  | .sb _ _ _ => .sb
  | .sh _ _ _ => .sh
  | .sw _ _ _ => .sw

/-- The `rs` field of an instruction (R61). -/
def Instr.rs : Instr → RegIdx
  | .lui rs _ _ | .addi rs _ _ | .addiu rs _ _ | .slti rs _ _ | .sltiu rs _ _
  | .andi rs _ _ | .ori rs _ _ | .xori rs _ _ | .beq rs _ _ | .bne rs _ _
  | .lb rs _ _ | .lbu rs _ _ | .lh rs _ _ | .lhu rs _ _ | .lw rs _ _
  | .sb rs _ _ | .sh rs _ _ | .sw rs _ _ => rs

/-- The `rt` field of an instruction (R61). -/
def Instr.rt : Instr → RegIdx
  | .lui _ rt _ | .addi _ rt _ | .addiu _ rt _ | .slti _ rt _ | .sltiu _ rt _
  | .andi _ rt _ | .ori _ rt _ | .xori _ rt _ | .beq _ rt _ | .bne _ rt _
  | .lb _ rt _ | .lbu _ rt _ | .lh _ rt _ | .lhu _ rt _ | .lw _ rt _
  | .sb _ rt _ | .sh _ rt _ | .sw _ rt _ => rt

/-- The `imm16` field of an instruction (R61). -/
def Instr.imm : Instr → Imm16
  | .lui _ _ imm | .addi _ _ imm | .addiu _ _ imm | .slti _ _ imm | .sltiu _ _ imm
  | .andi _ _ imm | .ori _ _ imm | .xori _ _ imm | .beq _ _ imm | .bne _ _ imm
  | .lb _ _ imm | .lbu _ _ imm | .lh _ _ imm | .lhu _ _ imm | .lw _ _ imm
  | .sb _ _ imm | .sh _ _ imm | .sw _ _ imm => imm

/-- Bits [31:26] (R61). -/
def fieldOpcode (w : Word) : BitVec 6 := w.extractLsb' 26 6

/-- Bits [25:21] (R61). -/
def fieldRs (w : Word) : RegIdx := w.extractLsb' 21 5

/-- Bits [20:16] (R61). -/
def fieldRt (w : Word) : RegIdx := w.extractLsb' 16 5

/-- Bits [15:0] (R61). -/
def fieldImm (w : Word) : Imm16 := w.extractLsb' 0 16

/-- The external dispatcher's selection (R65): the row whose opcode equals the field, if there is one. -/
def selectHandler (opcode : BitVec 6) : Option Handler :=
  Handler.all.find? (fun h => h.opcode == opcode)

/-- Why bytes are no instruction. -/
inductive DecodeError
  /-- R66: the opcode field is none of the eighteen of R65. -/
  | notThisBlock
  /-- Fewer than the 4 bytes of an instruction (R60) are given. -/
  | truncated
deriving DecidableEq, Repr

/-- The instruction a word stands for (R60, R61, R65), or its rejection (R66). -/
def decode (w : Word) : Except DecodeError Instr :=
  match selectHandler (fieldOpcode w) with
  | some h => .ok (h.build (fieldRs w) (fieldRt w) (fieldImm w))
  | none => .error .notThisBlock

/-- The word with given fields (R61: `oooooo sssss ttttt iiiiiiiiiiiiiiii`, most significant bit first). -/
def joinFields (opcode : BitVec 6) (rs rt : RegIdx) (imm : Imm16) : Word :=
  (opcode ++ rs ++ rt ++ imm : BitVec (6 + 5 + 5 + 16))

/-- The word of an instruction (R61, R65). -/
def encode (i : Instr) : Word := joinFields i.handler.opcode i.rs i.rt i.imm

/-- The unsigned value of bytes listed from the least significant one up. -/
def valueOfBytes : List Byte → Nat
  | [] => 0
  | b :: bs => b.toNat + 256 * valueOfBytes bs

/-- The value `MemRead` composes from the bytes at a, a+1, ... in this order (R44). -/
def composeBytes (e : Endian) (bs : List Byte) : Nat :=
  match e with
  | .little => valueOfBytes bs
  | .big => valueOfBytes bs.reverse

/-- The `n` bytes of a value, the least significant first. -/
def bytesOfValue {m : Nat} (n : Nat) (v : BitVec m) : List Byte :=
  (List.range n).map (fun k => v.extractLsb' (8 * k) 8)

/-- The bytes `MemWrite` stores at a, a+1, ... in this order (R44: `byte(a+k) <- v[8k+7:8k]`; under `ENDIAN = big`
the byte at a is the most significant). -/
def splitBytes {m : Nat} (e : Endian) (n : Nat) (v : BitVec m) : List Byte :=
  match e with
  | .little => bytesOfValue n v
  | .big => (bytesOfValue n v).reverse

/-- The instruction at the head of bytes in memory order, and the bytes after its 4 (R60, R44). -/
def decodeBytes (e : Endian) : List Byte → Except DecodeError (Instr × List Byte)
  | b0 :: b1 :: b2 :: b3 :: rest =>
    match decode (BitVec.ofNat 32 (composeBytes e [b0, b1, b2, b3])) with
    | .ok i => .ok (i, rest)
    | .error r => .error r
  | _ => .error .truncated

/-- The bytes of an instruction in memory order. -/
def encodeBytes (e : Endian) (i : Instr) : List Byte :=
  splitBytes e 4 (encode i)

/-- The word spec/opcode_table.json gives: `nbits` bits of `w`, bit 0 the least significant, zeros above. -/
def tableWord (nbits w : Nat) : Word :=
  BitVec.ofNat 32 (w % 2 ^ nbits)

/-- What the decoder reads from an opcode-table word, laid out in memory in the default byte order (R44). -/
def decodeTableWord (nbits w : Nat) : Option Instr :=
  match decodeBytes .little (splitBytes .little 4 (tableWord nbits w)) with
  | .ok (i, _) => some i
  | .error _ => none

end Sys2Proof
end

