-- ==== Sys2Proof/Machine/Parameters.lean ====
section
/-! DEFINITION. The defaults of the parameters of 00_scope.md R9. -/

namespace Sys2Proof.Machine

/-- The MIPS ABI names of 44_disassembly.md R153, registers 0 to 31. -/
def defaultRegNames : Vector String 32 :=
  #v["$zero", "$at", "$v0", "$v1", "$a0", "$a1", "$a2", "$a3",
     "$t0", "$t1", "$t2", "$t3", "$t4", "$t5", "$t6", "$t7",
     "$s0", "$s1", "$s2", "$s3", "$s4", "$s5", "$s6", "$s7",
     "$t8", "$t9", "$k0", "$k1", "$gp", "$sp", "$fp", "$ra"]

/-- The spelling of R152 and R154: one space after the mnemonic, `", "` between operands, `0x` and lowercase digits. -/
def defaultAsmStyle : AsmStyle where
  gap := " "
  separator := ", "
  hexPrefix := "0x"
  upperCase := false

/-- Every parameter at the default of R9. -/
def defaultParams : Params where
  branchDispMode := .sext
  endian := .little
  memAdmit := .aligned
  pcStep := 4#32
  regNames := defaultRegNames
  asmStyle := defaultAsmStyle

/-- The `REG_INIT` of the reset state: zero for every register. R9 leaves `REG_INIT` open.
[Log entry 2: DESIGN CHOICE, unsafe] -/
def resetRegInit : RegIdx → Option Word := fun _ => some 0#32

/-- The `RESET_PC` of the reset state. R9 leaves `RESET_PC` open; the programs of 95_test_vectors.md start here.
[Log entry 3: DESIGN CHOICE, unsafe] -/
def resetPc : Word := 0x00000000#32

end Sys2Proof.Machine
end

