-- ==== Sys2Proof/Machine/State.lean ====
section
/-! DEFINITION. The state of the machine (10_state.md R20), why a step stops (60_exceptions.md R170, R181), and the
state at the start of a run (10_state.md R35). -/

namespace Sys2Proof.Machine

/-- The operand latch `ops` (R32). -/
structure OperandLatch where
  /-- = rs -/
  src1Reg : RegIdx
  /-- = x[rs] at decode -/
  src1Val : Word
  /-- = imm16 -/
  immRaw : Imm16
  /-- = zext_32(imm16) -/
  immZext : Word
  /-- = rt -/
  destReg : RegIdx
deriving DecidableEq, Repr

/-- Memory as the (address, byte) pairs that hold a value (R41, R42), in one canonical form (`Memory.wf`). An
address that is not listed holds no value (R45), so no entry can equal what an unlisted address reads as. -/
abbrev Memory := List Host.Cell

/-- Everything the spec gives the machine (R20), and the parameters of R9 the run is made under. -/
structure State where
  /-- The general registers `x[0..31]` (R21). `none` is the spec's own "holds no value" (R22). Slot 0 is never
  written and is never read: `readReg` answers zero for index 0 whatever stands there. -/
  regs : Vector (Option Word) 32
  /-- The program counter (R26, R27). -/
  pc : Word
  /-- Memory (R31, R41). -/
  mem : Memory
  /-- The operand latch (R32); `none` is the "no value" of R35. -/
  ops : Option OperandLatch
  /-- The assembly text register (R33); `none` is the "no value" of R35. -/
  asmText : Option String
  /-- The parameters of R9: no state of the hardware, fixed for a run. -/
  params : Params
deriving DecidableEq, Repr

/-- Why the machine stops with a fault. Each is a fault of the spec and is safe: a stopped run is never a good end (R177). -/
inductive Fault
  /-- `RegFault(i)` (R170): raised by `readReg`, for all eighteen instructions, when x[i] holds no value (R22). Safe. -/
  | regFault (i : RegIdx)
  /-- `MemFault(addr, n, kind)` (R170): raised by `memRead` and `memWrite`, for the eight loads and stores (R45). Safe. -/
  | memFault (addr : Word) (n : Width) (kind : MemFaultKind)
  /-- A fetch that faults (R55), at `pc`: raised by `fetch` alone, before any instruction runs. Safe. -/
  | fetchFault (pc : Word) (kind : MemFaultKind)
deriving DecidableEq, Repr

/-- Why an invocation has no meaning (R181). -/
inductive Refusal
  /-- An instruction without a meaning yet: raised by a refused arm of `exec` alone (there is none). Safe. -/
  | notModelled (mnemonic : String)
  /-- `Refused(NotThisBlock)` (R66, R181): raised by `runWord` and `invoke` on a word whose opcode is none of the eighteen. Safe. -/
  | notThisBlock
  /-- `Refused(WrongHandler)` (R66, R181): raised by `invoke` when the handler is not the word's. Safe. -/
  | wrongHandler
deriving DecidableEq, Repr

/-- The state at the start of a run (R35, R192) under given parameters, `REG_INIT`, `MEM_INIT` and `RESET_PC`. -/
def State.launch (params : Params) (regInit : RegIdx → Option Word) (memInit : Memory) (resetPc : Word) : State where
  regs := Vector.ofFn (fun k : Fin 32 => if k.val = 0 then some 0#32 else regInit (BitVec.ofNat 5 k.val))
  pc := resetPc
  mem := memInit
  ops := none
  asmText := none
  params := params

/-- The machine right after reset: the launch of R35 with the default parameters of R9, no byte of memory given, and
the `REG_INIT` and `RESET_PC` the model names. [Log entries 2 and 3: DESIGN CHOICE, unsafe] -/
def State.reset : State :=
  State.launch defaultParams resetRegInit [] resetPc

end Sys2Proof.Machine
end

