-- ==== Sys2Proof/Machine/Ops.lean ====
section
/-! DEFINITION. The named operations over registers and memory (10_state.md R21, R22; 20_memory.md R40 to R49), and
how a step ends in a fault (60_exceptions.md R173). The block takes no exception and returns from none (R177,
R178): a fault is the outcome of the step and commits nothing. -/

namespace Sys2Proof.Machine

/-- The one way a step ends (R14, R173): the committed state, or the collaborator's fault passed on unmodified. -/
def finish (r : Except Fault State) : Host.Outcome State Fault Refusal :=
  match r with
  | .ok t => .next t
  | .error f => .fault f

/-- The register file's `read` (R21, R22): index 0 reads zero, a register that holds no value raises `RegFault`. -/
def readReg (s : State) (i : RegIdx) : Except Fault Word :=
  if i = 0#5 then .ok 0#32
  else
    match s.regs[i.toNat]'i.isLt with
    | some v => .ok v
    | none => .error (.regFault i)

/-- The register file's `write` (R21, R22): index 0 discards the value, and a write never faults. -/
def writeReg (s : State) (i : RegIdx) (v : Word) : State :=
  if i = 0#5 then s
  else { s with regs := s.regs.set i.toNat (some v) i.isLt }

/-- The byte at an address, or none where the address holds no value (R45). -/
def Memory.read : Memory → Nat → Option Byte
  | [], _ => none
  | (k, v) :: m, a => if k = a then some v else Memory.read m a

/-- Memory with one byte written; the canonical form is kept. -/
def Memory.write : Memory → Nat → Byte → Memory
  | [], a, b => [(a, b)]
  | (k, v) :: m, a, b =>
    if a < k then (a, b) :: (k, v) :: m
    else if a = k then (a, b) :: m
    else (k, v) :: Memory.write m a b

/-- The addresses rise strictly from `lo` on and stay below 2^32 (R42). -/
def Memory.wfFrom : Nat → Memory → Bool
  | _, [] => true
  | lo, (k, _) :: m => decide (lo ≤ k) && decide (k < 2 ^ 32) && Memory.wfFrom (k + 1) m

/-- The canonical form: addresses strictly rising in the 2^32-byte space. -/
def Memory.wf (m : Memory) : Bool := Memory.wfFrom 0 m

/-- The bytes at some addresses, if each holds a value. -/
def Memory.readAll (m : Memory) : List Nat → Option (List Byte)
  | [] => some []
  | a :: as =>
    match m.read a, Memory.readAll m as with
    | some b, some bs => some (b :: bs)
    | _, _ => none

/-- Memory with bytes written at addresses, pair by pair. -/
def Memory.writeAll : Memory → List (Nat × Byte) → Memory
  | m, [] => m
  | m, (a, b) :: rest => Memory.writeAll (m.write a b) rest

/-- The address of byte `k` of an access at `a`, modulo 2^32 (R44). -/
def byteAddress (a : Word) (k : Nat) : Nat := (a + BitVec.ofNat 32 k).toNat

/-- The addresses of an access, from `a` up (R44). -/
def accessAddresses (a : Word) (n : Width) : List Nat :=
  (List.range n.bytes).map (byteAddress a)

/-- `MEM_ADMIT(a, n)` (R45): none where the access is admitted, else the kind of the fault. -/
def admission (p : AdmitPolicy) (a : Word) (n : Width) : Option MemFaultKind :=
  match p with
  | .aligned => if a.toNat % n.bytes = 0 then none else some .alignment
  | .collaborator => Config.collaboratorAdmission a n

/-- The memory collaborator's read (R40, R44, R45): the unsigned value, or the kind of its fault. -/
def accessRead (s : State) (a : Word) (n : Width) : Except MemFaultKind (BitVec n.bits) :=
  match admission s.params.memAdmit a n with
  | some kind => .error kind
  | none =>
    match s.mem.readAll (accessAddresses a n) with
    | some bs => .ok (BitVec.ofNat n.bits (composeBytes s.params.endian bs))
    | none => .error .access

/-- `MemRead(a, n)` (R40, R45): a read has no side effect (R48). -/
def memRead (s : State) (a : Word) (n : Width) : Except Fault (BitVec n.bits) :=
  match accessRead s a n with
  | .ok v => .ok v
  | .error kind => .error (.memFault a n kind)

/-- `MemWrite(a, n, v)` (R40, R44, R45): all n bytes, or the fault and no byte (R46). -/
def memWrite (s : State) (a : Word) (n : Width) (v : BitVec n.bits) : Except Fault State :=
  match admission s.params.memAdmit a n with
  | some kind => .error (.memFault a n kind)
  | none =>
    .ok { s with mem := s.mem.writeAll ((accessAddresses a n).zip (splitBytes s.params.endian n.bytes v)) }

end Sys2Proof.Machine
end

