-- ==== Sys2Proof/Machine/Operands.lean ====
section
/-! DEFINITION. The operand decoder (40_operand_decoder.md R80) and every operand form: the extensions (00_scope.md
R12), the effective address (43_memory_access.md R120) and the branch displacement (42_branch.md R110). -/

namespace Sys2Proof.Machine

/-- `sext_32` (R12): widen to 32 bits replicating the top bit. -/
def sext32 {n : Nat} (v : BitVec n) : Word := v.signExtend 32

/-- `zext_32` (R12): widen to 32 bits with zero fill. -/
def zext32 {n : Nat} (v : BitVec n) : Word := v.setWidth 32

/-- The latch `Decode` fills from the fields and the value of x[rs] (R32, R80). -/
def latchOf (rs rt : RegIdx) (imm : Imm16) (a : Word) : OperandLatch where
  src1Reg := rs
  src1Val := a
  immRaw := imm
  immZext := zext32 imm
  destReg := rt

/-- `Decode` (R80): the operand latch, or the `RegFault(rs)` of its one register read (R81, R84). -/
def latchOperands (rs rt : RegIdx) (imm : Imm16) (s : State) : Except Fault OperandLatch := do
  let a ← readReg s rs
  pure (latchOf rs rt imm a)

/-- The effective address of every load and store (R120): `a + sext_32(i)`, modulo 2^32. -/
def effectiveAddress (a : Word) (i : Imm16) : Word := a + sext32 i

/-- `BranchDisp(i)` (R110). -/
def branchDisp (mode : BranchDispMode) (i : Imm16) : Word :=
  match mode with
  | .sext => sext32 i <<< 2
  | .raw => zext32 i <<< 2

/-- The upper-half operand of lui (R63, R91): `imm16 ++ 0x0000`. -/
def upperHalf (i : Imm16) : Word := (i ++ 0#16 : BitVec (16 + 16))

end Sys2Proof.Machine
end

