-- ==== Sys2Proof/Machine/Render.lean ====
section
/-! DEFINITION. The disassembly renderer (44_disassembly.md R150 to R157). It reads the handler, the operand latch
and the parameters `REG_NAME` and `ASM_STYLE`, and nothing else of the state (R150, R158). -/

namespace Sys2Proof.Machine

/-- The opcode name of each handler, lowercase as the source spells it (R151). -/
def mnemonic : Handler → String
  | .lui => "lui"
  | .addi => "addi"
  | .addiu => "addiu"
  | .slti => "slti"
  | .sltiu => "sltiu"
  | .andi => "andi"
  | .ori => "ori"
  | .xori => "xori"
  | .beq => "beq"
  | .bne => "bne"
  | .lb => "lb"
  | .lbu => "lbu"
  | .lh => "lh"
  | .lhu => "lhu"
  | .lw => "lw"
  | .sb => "sb"
  | .sh => "sh"
  | .sw => "sw"

/-- One hexadecimal digit. -/
def hexDigit (upperCase : Bool) (d : BitVec 4) : Char :=
  if d.toNat < 10 then Char.ofNat (48 + d.toNat)
  else if upperCase then Char.ofNat (55 + d.toNat)
  else Char.ofNat (87 + d.toNat)

/-- The 4 digits of the raw immediate field, the most significant first (R152). -/
def hexDigits (upperCase : Bool) (i : Imm16) : List Char :=
  [hexDigit upperCase (i.extractLsb' 12 4), hexDigit upperCase (i.extractLsb' 8 4),
   hexDigit upperCase (i.extractLsb' 4 4), hexDigit upperCase (i.extractLsb' 0 4)]

/-- `hex4(i)` (R152): never extended, never shifted, never more or fewer than 4 digits. -/
def hex4 (style : AsmStyle) (i : Imm16) : String :=
  style.hexPrefix ++ String.ofList (hexDigits style.upperCase i)

/-- `REG_NAME(i)` (R153). -/
def regName (p : Params) (i : RegIdx) : String := p.regNames[i.toNat]'i.isLt

/-- The ALU form "op dst, src, imm" (R154), also the form of branches (R156) and of lui (R157). -/
def renderAlu (h : Handler) (p : Params) (ops : OperandLatch) : String :=
  mnemonic h ++ p.asmStyle.gap ++ regName p ops.destReg ++ p.asmStyle.separator ++
    regName p ops.src1Reg ++ p.asmStyle.separator ++ hex4 p.asmStyle ops.immRaw

/-- The memory form "op dst, imm(base)" (R155). -/
def renderMem (h : Handler) (p : Params) (ops : OperandLatch) : String :=
  mnemonic h ++ p.asmStyle.gap ++ regName p ops.destReg ++ p.asmStyle.separator ++
    hex4 p.asmStyle ops.immRaw ++ "(" ++ regName p ops.src1Reg ++ ")"

/-- `Render(op, ops)` (R150): the memory form for loads and stores, the ALU form for the others. -/
def render (h : Handler) (p : Params) (ops : OperandLatch) : String :=
  match h.family with
  | .alu | .branch => renderAlu h p ops
  | .load | .store => renderMem h p ops

/-- The block's own outputs of a step that commits (R85): the latch it decoded and the text it rendered. -/
def commit (h : Handler) (ops : OperandLatch) (s : State) : State :=
  { s with ops := some ops, asmText := some (render h s.params ops) }

end Sys2Proof.Machine
end

