-- ==== Sys2Proof/Machine/AluImmediate.lean ====
section
/-! DEFINITION. The ALU-immediate executor (41_alu_immediate.md R90 to R100). -/

namespace Sys2Proof.Machine

/-- The common behaviour (R85, R90): `x[ops.dest_reg] <- f(src1, imm)`, `pc_out = pc`, no memory access. -/
def aluStep (h : Handler) (f : Word → Imm16 → Word) (rs rt : RegIdx) (imm : Imm16) (s : State) :
    Host.Outcome State Fault Refusal :=
  finish do
    let ops ← latchOperands rs rt imm s
    pure (commit h ops (writeReg s ops.destReg (f ops.src1Val ops.immRaw)))

/-- lui (R91): `x[d] <- i ++ 0x0000`; x[rs] is read and its value ignored. -/
def execLui (rs rt : RegIdx) (imm : Imm16) (s : State) : Host.Outcome State Fault Refusal :=
  aluStep .lui (fun _ i => upperHalf i) rs rt imm s

/-- addi (R92): `x[d] <- a + sext_32(i)`; signed overflow neither traps nor suppresses the write. -/
def execAddi (rs rt : RegIdx) (imm : Imm16) (s : State) : Host.Outcome State Fault Refusal :=
  aluStep .addi (fun a i => a + sext32 i) rs rt imm s

/-- addiu (R93): `x[d] <- a + sext_32(i)`. -/
def execAddiu (rs rt : RegIdx) (imm : Imm16) (s : State) : Host.Outcome State Fault Refusal :=
  aluStep .addiu (fun a i => a + sext32 i) rs rt imm s

/-- slti (R94): `x[d] <- signed(a) < signed(sext_32(i))`. -/
def execSlti (rs rt : RegIdx) (imm : Imm16) (s : State) : Host.Outcome State Fault Refusal :=
  aluStep .slti (fun a i => setLessSigned a (sext32 i)) rs rt imm s

/-- sltiu (R95): `x[d] <- unsigned(a) < unsigned(sext_32(i))`. -/
def execSltiu (rs rt : RegIdx) (imm : Imm16) (s : State) : Host.Outcome State Fault Refusal :=
  aluStep .sltiu (fun a i => setLessUnsigned a (sext32 i)) rs rt imm s

/-- andi (R96): `x[d] <- a & zext_32(i)`. -/
def execAndi (rs rt : RegIdx) (imm : Imm16) (s : State) : Host.Outcome State Fault Refusal :=
  aluStep .andi (fun a i => a &&& zext32 i) rs rt imm s

/-- ori (R97): `x[d] <- a | zext_32(i)`. -/
def execOri (rs rt : RegIdx) (imm : Imm16) (s : State) : Host.Outcome State Fault Refusal :=
  aluStep .ori (fun a i => a ||| zext32 i) rs rt imm s

/-- xori (R98): `x[d] <- a ^ zext_32(i)`. -/
def execXori (rs rt : RegIdx) (imm : Imm16) (s : State) : Host.Outcome State Fault Refusal :=
  aluStep .xori (fun a i => a ^^^ zext32 i) rs rt imm s

end Sys2Proof.Machine
end

