-- ==== Sys2Proof/Machine/Branch.lean ====
section
/-! DEFINITION. The branch executor (42_branch.md R110 to R116). `pc` is the branch's own address, and what a branch
leaves in it is the block's `pc_out`; the fetch loop of `step` adds `PC_STEP` (R27). -/

namespace Sys2Proof.Machine

/-- The common behaviour (R83, R85, R111): read x[rt] after decode, then `pc_out = pc + BranchDisp(i)` where the
condition holds and `pc_out = pc` where it does not. -/
def branchStep (h : Handler) (condition : Word → Word → Bool) (rs rt : RegIdx) (imm : Imm16) (s : State) :
    Host.Outcome State Fault Refusal :=
  finish do
    let ops ← latchOperands rs rt imm s
    let b ← readReg s rt
    let pcOut := if condition ops.src1Val b then s.pc + branchDisp s.params.branchDispMode ops.immRaw else s.pc
    pure (commit h ops { s with pc := pcOut })

/-- beq (R111). -/
def execBeq (rs rt : RegIdx) (imm : Imm16) (s : State) : Host.Outcome State Fault Refusal :=
  branchStep .beq wordsEqual rs rt imm s

/-- bne (R112). -/
def execBne (rs rt : RegIdx) (imm : Imm16) (s : State) : Host.Outcome State Fault Refusal :=
  branchStep .bne wordsDiffer rs rt imm s

end Sys2Proof.Machine
end

