-- ==== Sys2Proof/Machine/MemoryAccess.lean ====
section
/-! DEFINITION. The memory-access executor (43_memory_access.md R120 to R131). -/

namespace Sys2Proof.Machine

/-- The common load (R121): `x[d] <- Extend(MemRead(EA, N))`. -/
def loadStep (h : Handler) (n : Width) (extend : BitVec n.bits → Word) (rs rt : RegIdx) (imm : Imm16) (s : State) :
    Host.Outcome State Fault Refusal :=
  finish do
    let ops ← latchOperands rs rt imm s
    let v ← memRead s (effectiveAddress ops.src1Val ops.immRaw) n
    pure (commit h ops (writeReg s ops.destReg (extend v)))

/-- The common store (R127, R176): x[rt] is read before `MemWrite(EA, N, x[rt][N*8-1:0])` is attempted. -/
def storeStep (h : Handler) (n : Width) (rs rt : RegIdx) (imm : Imm16) (s : State) :
    Host.Outcome State Fault Refusal :=
  finish do
    let ops ← latchOperands rs rt imm s
    let b ← readReg s rt
    let t ← memWrite s (effectiveAddress ops.src1Val ops.immRaw) n (b.setWidth n.bits)
    pure (commit h ops t)

/-- lb (R122): `x[d] <- sext_32(MemRead(EA, 1))`. -/
def execLb (rs rt : RegIdx) (imm : Imm16) (s : State) : Host.Outcome State Fault Refusal :=
  loadStep .lb .byte (fun v => sext32 v) rs rt imm s

/-- lbu (R123): `x[d] <- zext_32(MemRead(EA, 1))`. -/
def execLbu (rs rt : RegIdx) (imm : Imm16) (s : State) : Host.Outcome State Fault Refusal :=
  loadStep .lbu .byte (fun v => zext32 v) rs rt imm s

/-- lh (R124): `x[d] <- sext_32(MemRead(EA, 2))`. -/
def execLh (rs rt : RegIdx) (imm : Imm16) (s : State) : Host.Outcome State Fault Refusal :=
  loadStep .lh .half (fun v => sext32 v) rs rt imm s

/-- lhu (R125): `x[d] <- zext_32(MemRead(EA, 2))`. -/
def execLhu (rs rt : RegIdx) (imm : Imm16) (s : State) : Host.Outcome State Fault Refusal :=
  loadStep .lhu .half (fun v => zext32 v) rs rt imm s

/-- lw (R126): `x[d] <- MemRead(EA, 4)`. -/
def execLw (rs rt : RegIdx) (imm : Imm16) (s : State) : Host.Outcome State Fault Refusal :=
  loadStep .lw .word (fun v => v) rs rt imm s

/-- sb (R128): `MemWrite(EA, 1, x[rt][7:0])`. -/
def execSb (rs rt : RegIdx) (imm : Imm16) (s : State) : Host.Outcome State Fault Refusal :=
  storeStep .sb .byte rs rt imm s

/-- sh (R129): `MemWrite(EA, 2, x[rt][15:0])`. -/
def execSh (rs rt : RegIdx) (imm : Imm16) (s : State) : Host.Outcome State Fault Refusal :=
  storeStep .sh .half rs rt imm s

/-- sw (R130): `MemWrite(EA, 4, x[rt])`. -/
def execSw (rs rt : RegIdx) (imm : Imm16) (s : State) : Host.Outcome State Fault Refusal :=
  storeStep .sw .word rs rt imm s

end Sys2Proof.Machine
end

