-- ==== Sys2Proof/Machine/Block.lean ====
section
/-! DEFINITION. The invocation of the block by its dispatcher (30_encoding.md R64 to R66, 40_operand_decoder.md R85)
and the fetch loop of the spec's system model (20_memory.md R55, 10_state.md R27). -/

namespace Sys2Proof.Machine

/-- `Step(op, w, pc)` (R85): the block invoked with a selected handler and a word. A word that is no instruction of the
block is refused first, then a handler that is not the word's (R66, R181). [Log entry 8: DESIGN CHOICE, safe] -/
def invoke (h : Handler) (w : Word) (s : State) : Host.Outcome State Fault Refusal :=
  match decode w with
  | .error _ => .refused .notThisBlock
  | .ok i => if i.handler = h then exec i s else .refused .wrongHandler

/-- The dispatcher of R65: select the handler by the opcode field and invoke the block, or refuse the word (R66). -/
def runWord (w : Word) (s : State) : Host.Outcome State Fault Refusal :=
  match selectHandler (fieldOpcode w) with
  | some h => invoke h w s
  | none => .refused .notThisBlock

/-- The fetch of R55: `MemRead(pc, 4)`. A pc that is not a multiple of 4 faults whatever `MEM_ADMIT` says (R27). -/
def fetch (s : State) : Except Fault Word :=
  if s.pc.toNat % 4 = 0 then
    match accessRead s s.pc .word with
    | .ok w => .ok w
    | .error kind => .error (.fetchFault s.pc kind)
  else .error (.fetchFault s.pc .alignment)

/-- The fetch loop's update after a step with outcome `Next` (R27): pc becomes `pc_out + PC_STEP`, modulo 2^32. -/
def advancePc (o : Host.Outcome State Fault Refusal) : Host.Outcome State Fault Refusal :=
  match o with
  | .next t => .next { t with pc := t.pc + t.params.pcStep }
  | .fault f => .fault f
  | .refused r => .refused r

/-- Fetch, run, advance. -/
def fetchAndRun (s : State) : Host.Outcome State Fault Refusal :=
  match fetch s with
  | .ok w => advancePc (runWord w s)
  | .error f => .fault f

/-- Memory with a word stored at the pc in the machine's byte order, where `fetch` reads it. -/
def placeWord (s : State) (w : Word) : State :=
  { s with mem := s.mem.writeAll ((accessAddresses s.pc .word).zip (splitBytes s.params.endian 4 w)) }

end Sys2Proof.Machine
end

