-- ==== Sys2Proof/Machine/Step.lean ====
section
/-! DEFINITION. One step of the spec's system model (70_reset_and_hazards.md R198): fetch, run, update the pc. -/

namespace Sys2Proof.Machine

/-- One step: the word at the pc is fetched and run, and the fetch loop moves the pc past it (R27, R55, R198). -/
def step (s : State) : Host.Outcome State Fault Refusal := fetchAndRun s

/-- The state with an opcode-table word stored where `step` fetches its next instruction. -/
def State.withFetchWord (s : State) (nbits w : Nat) : State := placeWord s (tableWord nbits w)

end Sys2Proof.Machine
end

