-- ==== Sys2Proof/Machine/Run.lean ====
section
/-! DEFINITION. A run of the spec's system model and how it ends (70_reset_and_hazards.md R198, 60_exceptions.md R177). -/

namespace Sys2Proof.Machine

/-- How a run ends (R198). -/
inductive RunEnd
  /-- The PC equals `END_PC`. -/
  | endedWell (s : State)
  /-- A fetch fault or a step with outcome `Fault`: the faulted state, never a good end (R177). -/
  | faulted (s : State) (f : Fault)
  /-- A step with outcome `Refused`, never a good end. -/
  | refused (s : State) (r : Refusal)
  /-- The bound on the steps is used up before the run ends. -/
  | unfinished (s : State)
deriving DecidableEq, Repr

/-- The state a run stops in after a fault: nothing is committed (R173). After a step with outcome `Fault` the assembly
text is any string (R160); a fetch that faults invokes no step, so the text stays. [Log entry 10: DESIGN CHOICE, safe] -/
def faultedState (taken : Nat) (s : State) (f : Fault) : State :=
  match f with
  | .fetchFault _ _ => s
  | .regFault _ => { s with asmText := some (Config.faultText taken) }
  | .memFault _ _ _ => { s with asmText := some (Config.faultText taken) }

/-- At most `bound` steps of a run towards `END_PC`, of which `taken` came before. -/
def runFrom (endPc : Word) (taken : Nat) : Nat → State → RunEnd
  | bound, s =>
    if s.pc = endPc then .endedWell s
    else
      match bound with
      | 0 => .unfinished s
      | bound + 1 =>
        match step s with
        | .next t => runFrom endPc (taken + 1) bound t
        | .fault f => .faulted (faultedState taken s f) f
        | .refused r => .refused s r

/-- A run of at most `bound` steps from `s` (R198). -/
def run (endPc : Word) (bound : Nat) (s : State) : RunEnd := runFrom endPc 0 bound s

/-- Where the wider machine sends control after a run's end: after a fault, `TRAP_TARGET`, of which nothing is known (R177). -/
def RunEnd.controlGoesTo : RunEnd → Option Word
  | .faulted _ _ => some Config.trapTarget
  | .endedWell _ => none
  | .refused _ _ => none
  | .unfinished _ => none

end Sys2Proof.Machine
end

