-- ==== Sys2Proof/Safety.lean ====
section
/-! DEFINITION. What a good run is and what an instruction may change, in the words the statements use. -/

namespace Sys2Proof.Machine

/-- A run ends well (70_reset_and_hazards.md R198). -/
def EndsWell (endPc : Word) (bound : Nat) (s : State) : Prop :=
  ∃ t, run endPc bound s = .endedWell t

/-- Every register holds a value, so that no register read faults. -/
def RegistersValued (s : State) : Prop := ∀ i : RegIdx, (readReg s i).isOk = true

/-- What every step keeps: memory is in its canonical form, the slot of register 0 still holds zero (10_state.md
R21), and the pc stays a multiple of 4 (42_branch.md R115) where `PC_STEP` is one. -/
structure Inv (s : State) : Prop where
  memCanonical : s.mem.wf = true
  zeroSlot : s.regs[0] = some 0#32
  pcAligned : s.pc.toNat % 4 = 0
  stepAligned : s.params.pcStep.toNat % 4 = 0

/-- Every register reads as before. -/
def SameRegisters (s t : State) : Prop := ∀ j : RegIdx, readReg t j = readReg s j

/-- Every byte of memory reads as before. -/
def SameMemory (s t : State) : Prop := ∀ a : Nat, t.mem.read a = s.mem.read a

/-- The halfword the bytes at a and a + 1 compose (20_memory.md R44: `byte(a+1) ++ byte(a)`, or the reverse under big). -/
def halfOfBytes (e : Endian) (b0 b1 : Byte) : BitVec 16 :=
  match e with
  | .little => b1 ++ b0
  | .big => b0 ++ b1

/-- The word the bytes at a to a + 3 compose (20_memory.md R44). -/
def wordOfBytes (e : Endian) (b0 b1 b2 b3 : Byte) : Word :=
  match e with
  | .little => b3 ++ b2 ++ b1 ++ b0
  | .big => b0 ++ b1 ++ b2 ++ b3

/-- The frame of an instruction that writes one register and nothing else of registers, pc, memory and parameters. A
write of register 0 is discarded (10_state.md R21): it reads zero after. -/
structure WritesOnly (s t : State) (d : RegIdx) (v : Word) : Prop where
  result : readReg t d = .ok (if d = 0#5 then 0#32 else v)
  otherRegisters : ∀ j : RegIdx, j ≠ d → readReg t j = readReg s j
  pcKept : t.pc = s.pc
  memoryKept : SameMemory s t
  paramsKept : t.params = s.params

/-- The frame of an instruction that writes at most the pc. -/
structure MovesPcOnly (s t : State) (pcOut : Word) : Prop where
  pcOut : t.pc = pcOut
  registersKept : SameRegisters s t
  memoryKept : SameMemory s t
  paramsKept : t.params = s.params

/-- The frame of a store of `n` bytes at `a`: byte `k` of the access holds `bytes k` after, every address outside the
access reads as before, and registers, pc and parameters are unchanged. -/
structure StoresOnly (s t : State) (a : Word) (n : Width) (bytes : Nat → Byte) : Prop where
  stored : ∀ k, k < n.bytes → t.mem.read (byteAddress a k) = some (bytes k)
  otherBytes : ∀ x : Nat, (∀ k, k < n.bytes → x ≠ byteAddress a k) → t.mem.read x = s.mem.read x
  registersKept : SameRegisters s t
  pcKept : t.pc = s.pc
  paramsKept : t.params = s.params

/-- Two states that differ at most in the latch, the assembly text, `REG_NAME` and `ASM_STYLE`. -/
structure AgreeOnExecution (s t : State) : Prop where
  regs : s.regs = t.regs
  pc : s.pc = t.pc
  mem : s.mem = t.mem
  branchDispMode : s.params.branchDispMode = t.params.branchDispMode
  endian : s.params.endian = t.params.endian
  memAdmit : s.params.memAdmit = t.params.memAdmit
  pcStep : s.params.pcStep = t.params.pcStep

/-- Two outcomes that agree on everything but the latch and the text. -/
def SameExecution : Host.Outcome State Fault Refusal → Host.Outcome State Fault Refusal → Prop
  | .next s, .next t => AgreeOnExecution s t
  | .fault f, .fault g => f = g
  | .refused r, .refused q => r = q
  | _, _ => False

/-- Handler `h` is a load of width `n` with extension `extend` (43_memory_access.md R121): EA = a + sext_32(i), the
extended value goes to x[rt] and to nothing else, the memory form is rendered, and a fault of `MemRead` is the fault. -/
def LoadsAs (h : Handler) (n : Width) (extend : BitVec n.bits → Word) : Prop :=
  ∀ (s : State) (rs rt : RegIdx) (imm : Imm16) (a : Word), readReg s rs = .ok a →
    (∀ v, memRead s (a + imm.signExtend 32) n = .ok v →
      ∃ t, exec (h.build rs rt imm) s = .next t ∧ WritesOnly s t rt (extend v) ∧
        t.asmText = some (renderMem h s.params (latchOf rs rt imm a))) ∧
    (∀ f, memRead s (a + imm.signExtend 32) n = .error f → exec (h.build rs rt imm) s = .fault f)

/-- Handler `h` is a store of width `n` (43_memory_access.md R127): the low n*8 bits of x[rt] go to EA = a + sext_32(i), no
register is written, the memory form is rendered, and a fault of `MemWrite` is the fault. -/
def StoresAs (h : Handler) (n : Width) : Prop :=
  ∀ (s : State) (rs rt : RegIdx) (imm : Imm16) (a b : Word), readReg s rs = .ok a → readReg s rt = .ok b →
    (∀ u, memWrite s (a + imm.signExtend 32) n (b.extractLsb' 0 n.bits) = .ok u →
      ∃ t, exec (h.build rs rt imm) s = .next t ∧ t.mem = u.mem ∧ SameRegisters s t ∧ t.pc = s.pc ∧
        t.params = s.params ∧ t.asmText = some (renderMem h s.params (latchOf rs rt imm a))) ∧
    (∀ f, memWrite s (a + imm.signExtend 32) n (b.extractLsb' 0 n.bits) = .error f →
      exec (h.build rs rt imm) s = .fault f)

end Sys2Proof.Machine
end

