-- ==== Sys2Proof/Certificates/Slice0/Obligations.lean ====
section
/-! DEFINITION. The statements about the model, each from the rules of spec/ its docstring names. -/

open Sys2Proof Sys2Proof.Machine

/-! ### Encoding (30_encoding.md) -/

/-- R61, R65, R67: every value of every field of every instruction survives encoding, as a word and as bytes in either
byte order, with any bytes after it, and is well formed. -/
def Obligations.DecodeOfEncodeIsIdentity : Prop :=
  ∀ i : Instr, i.wellFormed = true ∧ decode (encode i) = .ok i ∧
    ∀ (e : Endian) (rest : List Byte), decodeBytes e (encodeBytes e i ++ rest) = .ok (i, rest)

/-- R61, R65: a word has one meaning, and no bit of it is dropped. -/
def Obligations.EncodeOfDecodeIsIdentity : Prop :=
  ∀ (w : Word) (i : Instr), decode w = .ok i → encode i = w

/-- R61: the fields of a decoded instruction are the bits of the word R61 gives them. -/
def Obligations.DecodedFieldsAreTheWordsBits : Prop :=
  ∀ (w : Word) (i : Instr), decode w = .ok i →
    (∀ k, k < 16 → i.imm.getLsbD k = w.getLsbD k) ∧
    (∀ k, k < 5 → i.rt.getLsbD k = w.getLsbD (16 + k)) ∧
    (∀ k, k < 5 → i.rs.getLsbD k = w.getLsbD (21 + k)) ∧
    (∀ k, k < 6 → i.handler.opcode.getLsbD k = w.getLsbD (26 + k))

/-- 95_test_vectors.md 2.1 and 2.5: words of the spec, of every family, and the instructions they stand for. -/
def Obligations.SpecWordsDecode : Prop :=
  decode 0x3C081234#32 = .ok (.lui 0 8 0x1234) ∧
  decode 0x2509FFFF#32 = .ok (.addiu 8 9 0xFFFF) ∧
  decode 0x1500FFFD#32 = .ok (.bne 8 0 0xFFFD) ∧
  decode 0x8FA8FFFC#32 = .ok (.lw 29 8 0xFFFC) ∧
  decode 0xAD090004#32 = .ok (.sw 8 9 0x0004) ∧
  decode 0xFFFFFFFF#32 = .error .notThisBlock ∧
  decode 0x00000000#32 = .error .notThisBlock

/-- R66, R181 (the spec's decision D16; which refusal comes first is the model's choice, log entry 8): an opcode outside the
eighteen is refused by the dispatcher and by every handler, by a step that fetches it, and by a run (R198), which ends there
with nothing committed and the text unchanged (R160); a handler that is not the word's refuses it, and the word's own
handler runs it. -/
def Obligations.WrongInvocationsAreRefused : Prop :=
  ∀ (w : Word) (s : State),
    (w.wellFormed = false → runWord w s = .refused .notThisBlock ∧ (∀ h, invoke h w s = .refused .notThisBlock) ∧
      (fetch s = .ok w → step s = .refused .notThisBlock ∧
        ∀ (endPc : Word) (bound : Nat), s.pc ≠ endPc → run endPc (bound + 1) s = .refused s .notThisBlock)) ∧
    (w.wellFormed = true → ∃ i, decode w = .ok i ∧ runWord w s = exec i s ∧ invoke i.handler w s = exec i s ∧
      ∀ h, h ≠ i.handler → invoke h w s = .refused .wrongHandler)

/-- R12: `sext_32` and `zext_32` of 16-bit and 8-bit values, bit by bit. -/
def Obligations.ExtensionsReplicateOrZeroFill : Prop :=
  (∀ (v : BitVec 16) (k : Nat), k < 32 →
    (sext32 v).getLsbD k = (if k < 16 then v.getLsbD k else v.getLsbD 15) ∧
    (zext32 v).getLsbD k = (if k < 16 then v.getLsbD k else false)) ∧
  (∀ (v : BitVec 8) (k : Nat), k < 32 →
    (sext32 v).getLsbD k = (if k < 8 then v.getLsbD k else v.getLsbD 7) ∧
    (zext32 v).getLsbD k = (if k < 8 then v.getLsbD k else false))

/-! ### Registers (10_state.md) -/

/-- R21, R22 (the spec's decision D9): index 0 reads zero and discards writes, any other register reads as last written,
and no other register is touched by a write. -/
def Obligations.RegisterReadAfterWrite : Prop :=
  ∀ (s : State) (i j : RegIdx) (v : Word),
    writeReg s 0#5 v = s ∧
    readReg (writeReg s i v) j = (if j = 0#5 then .ok 0#32 else if j = i then .ok v else readReg s j)

/-- R22 (the spec's decision D9): a read faults exactly on a register 1 to 31 that holds no value, with its own index. -/
def Obligations.RegisterReadFaultsExactlyWithoutValue : Prop :=
  ∀ (s : State) (i : RegIdx) (f : Fault),
    readReg s i = .error f ↔ (i ≠ 0#5 ∧ s.regs[i.toNat]'i.isLt = none ∧ f = .regFault i)

/-! ### ALU-immediate instructions (41_alu_immediate.md)

Each completes whenever x[rs] holds a value, with every value of rs, rt and imm, rt = rs and rt = 0 among them. The result
is the pseudocode's, said without the model's own operand functions. -/

/-- R91, pseudocode of lui. -/
def Obligations.LuiResult : Prop :=
  ∀ (s : State) (rs rt : RegIdx) (imm : Imm16) (a : Word), readReg s rs = .ok a →
    ∃ t, exec (.lui rs rt imm) s = .next t ∧ WritesOnly s t rt (BitVec.ofNat 32 (imm.toNat * 65536))

/-- R92, pseudocode of addi: no trap on signed overflow (C4, decision D8). -/
def Obligations.AddiResult : Prop :=
  ∀ (s : State) (rs rt : RegIdx) (imm : Imm16) (a : Word), readReg s rs = .ok a →
    ∃ t, exec (.addi rs rt imm) s = .next t ∧ WritesOnly s t rt (BitVec.ofInt 32 (a.toInt + imm.toInt))

/-- R93, pseudocode of addiu: `(r + sign_extend16(i)) mod 2^32`, never a trap. -/
def Obligations.AddiuResult : Prop :=
  ∀ (s : State) (rs rt : RegIdx) (imm : Imm16) (a : Word), readReg s rs = .ok a →
    ∃ t, exec (.addiu rs rt imm) s = .next t ∧ WritesOnly s t rt (BitVec.ofInt 32 (a.toNat + imm.toInt))

/-- R94, pseudocode of slti. -/
def Obligations.SltiResult : Prop :=
  ∀ (s : State) (rs rt : RegIdx) (imm : Imm16) (a : Word), readReg s rs = .ok a →
    ∃ t, exec (.slti rs rt imm) s = .next t ∧ WritesOnly s t rt (if a.toInt < imm.toInt then 1#32 else 0#32)

/-- R95, pseudocode of sltiu: the immediate is sign-extended and then compared unsigned, so that 0x8000 to 0xFFFF stand
for 0xFFFF8000 to 0xFFFFFFFF. -/
def Obligations.SltiuResult : Prop :=
  ∀ (s : State) (rs rt : RegIdx) (imm : Imm16) (a : Word), readReg s rs = .ok a →
    ∃ t, exec (.sltiu rs rt imm) s = .next t ∧ WritesOnly s t rt
      (if a.toNat < (if imm.toNat < 0x8000 then imm.toNat else imm.toNat + 0xFFFF0000) then 1#32 else 0#32)

/-- R96, pseudocode of andi. -/
def Obligations.AndiResult : Prop :=
  ∀ (s : State) (rs rt : RegIdx) (imm : Imm16) (a : Word), readReg s rs = .ok a →
    ∃ t, exec (.andi rs rt imm) s = .next t ∧ WritesOnly s t rt (BitVec.ofNat 32 (a.toNat &&& imm.toNat))

/-- R97, pseudocode of ori. -/
def Obligations.OriResult : Prop :=
  ∀ (s : State) (rs rt : RegIdx) (imm : Imm16) (a : Word), readReg s rs = .ok a →
    ∃ t, exec (.ori rs rt imm) s = .next t ∧ WritesOnly s t rt (BitVec.ofNat 32 (a.toNat ||| imm.toNat))

/-- R98, pseudocode of xori. -/
def Obligations.XoriResult : Prop :=
  ∀ (s : State) (rs rt : RegIdx) (imm : Imm16) (a : Word), readReg s rs = .ok a →
    ∃ t, exec (.xori rs rt imm) s = .next t ∧ WritesOnly s t rt (BitVec.ofNat 32 (a.toNat ^^^ imm.toNat))

/-- R92: "The result is bit-identical to addiu for every input": both complete in the same registers, pc and memory, or
both stop with the same fault. -/
def Obligations.AddiAndAddiuAgree : Prop :=
  ∀ (s : State) (rs rt : RegIdx) (imm : Imm16),
    (∃ t u, exec (.addi rs rt imm) s = .next t ∧ exec (.addiu rs rt imm) s = .next u ∧
      t.regs = u.regs ∧ t.pc = u.pc ∧ t.mem = u.mem) ∨
    (∃ f, exec (.addi rs rt imm) s = .fault f ∧ exec (.addiu rs rt imm) s = .fault f)

/-- R90: of each of the eight, `dest = f(src1, src2)` for a function f of the operand and the immediate alone; one register
is written, the pc and memory are kept, the ALU form is rendered, and the one fault is the decoder's. -/
def Obligations.AluImmediateCommonBehaviour : Prop :=
  ∀ h : Handler, h.family = .alu → ∃ f : Word → Imm16 → Word,
    ∀ (s : State) (rs rt : RegIdx) (imm : Imm16),
      (∀ a, readReg s rs = .ok a →
        ∃ t, exec (h.build rs rt imm) s = .next t ∧ WritesOnly s t rt (f a imm) ∧
          t.asmText = some (renderAlu h s.params (latchOf rs rt imm a))) ∧
      (∀ e, exec (h.build rs rt imm) s = .fault e → e = .regFault rs ∧ readReg s rs = .error e)

/-! ### Branches (42_branch.md) -/

/-- R110 (C2, decision D7): the displacement is four times the signed field in mode `sext` and four times the unsigned
field in mode `raw`. -/
def Obligations.BranchDisplacementOfEachMode : Prop :=
  ∀ i : Imm16, (branchDisp .sext i).toInt = 4 * i.toInt ∧ (branchDisp .raw i).toNat = 4 * i.toNat

/-- R111, pseudocode of beq. -/
def Obligations.BeqResult : Prop :=
  ∀ (s : State) (rs rt : RegIdx) (imm : Imm16) (a b : Word), readReg s rs = .ok a → readReg s rt = .ok b →
    ∃ t, exec (.beq rs rt imm) s = .next t ∧
      MovesPcOnly s t (if a = b then s.pc + branchDisp s.params.branchDispMode imm else s.pc)

/-- R112, pseudocode of bne. -/
def Obligations.BneResult : Prop :=
  ∀ (s : State) (rs rt : RegIdx) (imm : Imm16) (a b : Word), readReg s rs = .ok a → readReg s rt = .ok b →
    ∃ t, exec (.bne rs rt imm) s = .next t ∧
      MovesPcOnly s t (if a = b then s.pc else s.pc + branchDisp s.params.branchDispMode imm)

/-- R26, R113: over all instructions, `pc_out = pc + disp` for a taken branch and `pc_out = pc` for everything else. -/
def Obligations.OnlyTakenBranchesMoveThePc : Prop :=
  ∀ (i : Instr) (s t : State), exec i s = .next t →
    (i.handler ≠ .beq → i.handler ≠ .bne → t.pc = s.pc) ∧
    (∀ a b, readReg s i.rs = .ok a → readReg s i.rt = .ok b →
      (i.handler = .beq →
        t.pc = if a = b then s.pc + branchDisp s.params.branchDispMode i.imm else s.pc) ∧
      (i.handler = .bne →
        t.pc = if a ≠ b then s.pc + branchDisp s.params.branchDispMode i.imm else s.pc))

/-- R114 (decisions D5, D6): with `PC_STEP = 4`, a taken branch at A makes the next fetch at A + 4 + BranchDisp(i), with no
delay slot, and a branch not taken at A + 4. -/
def Obligations.NextFetchAfterBranch : Prop :=
  ∀ (s : State) (w : Word) (i : Instr) (a b : Word), fetch s = .ok w → decode w = .ok i →
    readReg s i.rs = .ok a → readReg s i.rt = .ok b → s.params.pcStep = 4#32 →
    (i.handler = .beq → ∃ t, step s = .next t ∧
      t.pc = if a = b then s.pc + 4#32 + branchDisp s.params.branchDispMode i.imm else s.pc + 4#32) ∧
    (i.handler = .bne → ∃ t, step s = .next t ∧
      t.pc = if a = b then s.pc + 4#32 else s.pc + 4#32 + branchDisp s.params.branchDispMode i.imm)

/-! ### Memory (20_memory.md, 43_memory_access.md) -/

/-- R120 (decision D27): the effective address is the base plus the signed offset, modulo 2^32. -/
def Obligations.EffectiveAddressWraps : Prop :=
  ∀ (a : Word) (i : Imm16), ((effectiveAddress a i).toNat : Int) = (a.toNat + i.toInt) % 2 ^ 32

/-- R45 (decision D3): the default `MEM_ADMIT` admits every byte, the halfwords at even addresses and the words at
multiples of 4, and refuses every other access as misaligned. -/
def Obligations.DefaultAdmission : Prop :=
  ∀ a : Word, admission .aligned a .byte = none ∧
    admission .aligned a .half = (if a.getLsbD 0 = false then none else some .alignment) ∧
    admission .aligned a .word = (if a.getLsbD 0 = false ∧ a.getLsbD 1 = false then none else some .alignment)

/-- R44, R45 (decisions D2, D4): an admitted read composes its bytes in the byte order, addresses modulo 2^32, and faults
as `access` where one of them holds no value; whatever the policy `MEM_ADMIT` is (decision D3), a read or a write that it
refuses is the `MemFault` of its kind. -/
def Obligations.MemReadComposesBytes : Prop :=
  ∀ (s : State) (a : Word),
    (admission s.params.memAdmit a .byte = none → ∀ b0,
      s.mem.read a.toNat = some b0 → memRead s a .byte = .ok b0) ∧
    (admission s.params.memAdmit a .half = none → ∀ b0 b1,
      s.mem.read a.toNat = some b0 → s.mem.read (a + 1#32).toNat = some b1 →
      memRead s a .half = .ok (halfOfBytes s.params.endian b0 b1)) ∧
    (admission s.params.memAdmit a .word = none → ∀ b0 b1 b2 b3,
      s.mem.read a.toNat = some b0 → s.mem.read (a + 1#32).toNat = some b1 →
      s.mem.read (a + 2#32).toNat = some b2 → s.mem.read (a + 3#32).toNat = some b3 →
      memRead s a .word = .ok (wordOfBytes s.params.endian b0 b1 b2 b3)) ∧
    (∀ n k, admission s.params.memAdmit a n = none → k < n.bytes → s.mem.read (byteAddress a k) = none →
      memRead s a n = .error (.memFault a n .access)) ∧
    (∀ n kind, admission s.params.memAdmit a n = some kind →
      memRead s a n = .error (.memFault a n kind) ∧ ∀ v, memWrite s a n v = .error (.memFault a n kind))

/-- R48: a read of what was just written returns it, for every width, byte order and address that is admitted. -/
def Obligations.MemReadAfterMemWrite : Prop :=
  ∀ (s t : State) (a : Word) (n : Width) (v : BitVec n.bits), memWrite s a n v = .ok t → memRead t a n = .ok v

/-- R122, pseudocode of lb. -/
def Obligations.LbResult : Prop :=
  ∀ (s : State) (rs rt : RegIdx) (imm : Imm16) (a : Word) (b0 : Byte), readReg s rs = .ok a →
    admission s.params.memAdmit (effectiveAddress a imm) .byte = none →
    s.mem.read (byteAddress (effectiveAddress a imm) 0) = some b0 →
    ∃ t, exec (.lb rs rt imm) s = .next t ∧ WritesOnly s t rt (BitVec.ofInt 32 b0.toInt)

/-- R123, pseudocode of lbu. -/
def Obligations.LbuResult : Prop :=
  ∀ (s : State) (rs rt : RegIdx) (imm : Imm16) (a : Word) (b0 : Byte), readReg s rs = .ok a →
    admission s.params.memAdmit (effectiveAddress a imm) .byte = none →
    s.mem.read (byteAddress (effectiveAddress a imm) 0) = some b0 →
    ∃ t, exec (.lbu rs rt imm) s = .next t ∧ WritesOnly s t rt (BitVec.ofNat 32 b0.toNat)

/-- R124, pseudocode of lh, in either byte order (R44). -/
def Obligations.LhResult : Prop :=
  ∀ (s : State) (rs rt : RegIdx) (imm : Imm16) (a : Word) (b0 b1 : Byte), readReg s rs = .ok a →
    admission s.params.memAdmit (effectiveAddress a imm) .half = none →
    s.mem.read (byteAddress (effectiveAddress a imm) 0) = some b0 →
    s.mem.read (byteAddress (effectiveAddress a imm) 1) = some b1 →
    ∃ t, exec (.lh rs rt imm) s = .next t ∧ WritesOnly s t rt
      (match s.params.endian with
        | .little => BitVec.ofInt 32 (b1.toInt * 256 + b0.toNat)
        | .big => BitVec.ofInt 32 (b0.toInt * 256 + b1.toNat))

/-- R125, pseudocode of lhu, in either byte order (R44). -/
def Obligations.LhuResult : Prop :=
  ∀ (s : State) (rs rt : RegIdx) (imm : Imm16) (a : Word) (b0 b1 : Byte), readReg s rs = .ok a →
    admission s.params.memAdmit (effectiveAddress a imm) .half = none →
    s.mem.read (byteAddress (effectiveAddress a imm) 0) = some b0 →
    s.mem.read (byteAddress (effectiveAddress a imm) 1) = some b1 →
    ∃ t, exec (.lhu rs rt imm) s = .next t ∧ WritesOnly s t rt
      (match s.params.endian with
        | .little => BitVec.ofNat 32 (b1.toNat * 256 + b0.toNat)
        | .big => BitVec.ofNat 32 (b0.toNat * 256 + b1.toNat))

/-- R126, pseudocode of lw, in either byte order (R44). -/
def Obligations.LwResult : Prop :=
  ∀ (s : State) (rs rt : RegIdx) (imm : Imm16) (a : Word) (b0 b1 b2 b3 : Byte), readReg s rs = .ok a →
    admission s.params.memAdmit (effectiveAddress a imm) .word = none →
    s.mem.read (byteAddress (effectiveAddress a imm) 0) = some b0 →
    s.mem.read (byteAddress (effectiveAddress a imm) 1) = some b1 →
    s.mem.read (byteAddress (effectiveAddress a imm) 2) = some b2 →
    s.mem.read (byteAddress (effectiveAddress a imm) 3) = some b3 →
    ∃ t, exec (.lw rs rt imm) s = .next t ∧ WritesOnly s t rt (wordOfBytes s.params.endian b0 b1 b2 b3)

/-- R128, pseudocode of sb: the byte at the effective address, and nothing else. -/
def Obligations.SbResult : Prop :=
  ∀ (s : State) (rs rt : RegIdx) (imm : Imm16) (a b : Word), readReg s rs = .ok a → readReg s rt = .ok b →
    admission s.params.memAdmit (effectiveAddress a imm) .byte = none →
    ∃ t, exec (.sb rs rt imm) s = .next t ∧
      StoresOnly s t (effectiveAddress a imm) .byte (fun _ => b.extractLsb' 0 8)

/-- R129, pseudocode of sh: the two bytes from the effective address up, in either byte order (R44), and nothing else. -/
def Obligations.ShResult : Prop :=
  ∀ (s : State) (rs rt : RegIdx) (imm : Imm16) (a b : Word), readReg s rs = .ok a → readReg s rt = .ok b →
    admission s.params.memAdmit (effectiveAddress a imm) .half = none →
    ∃ t, exec (.sh rs rt imm) s = .next t ∧
      StoresOnly s t (effectiveAddress a imm) .half (fun k =>
        match s.params.endian with
        | .little => b.extractLsb' (8 * k) 8
        | .big => b.extractLsb' (8 * (1 - k)) 8)

/-- R130, pseudocode of sw: the four bytes from the effective address up, in either byte order (R44), and nothing else. -/
def Obligations.SwResult : Prop :=
  ∀ (s : State) (rs rt : RegIdx) (imm : Imm16) (a b : Word), readReg s rs = .ok a → readReg s rt = .ok b →
    admission s.params.memAdmit (effectiveAddress a imm) .word = none →
    ∃ t, exec (.sw rs rt imm) s = .next t ∧
      StoresOnly s t (effectiveAddress a imm) .word (fun k =>
        match s.params.endian with
        | .little => b.extractLsb' (8 * k) 8
        | .big => b.extractLsb' (8 * (3 - k)) 8)

/-- R121: every load reads its N bytes at EA and extends as its row says. -/
def Obligations.LoadCommonBehaviour : Prop :=
  LoadsAs .lb .byte (fun v => v.signExtend 32) ∧ LoadsAs .lh .half (fun v => v.signExtend 32) ∧
  LoadsAs .lbu .byte (fun v => v.setWidth 32) ∧ LoadsAs .lhu .half (fun v => v.setWidth 32) ∧
  LoadsAs .lw .word (fun v => v)

/-- R127: every store writes the low N*8 bits of x[rt] at EA. -/
def Obligations.StoreCommonBehaviour : Prop :=
  StoresAs .sb .byte ∧ StoresAs .sh .half ∧ StoresAs .sw .word

/-- R48 and the worked examples S6 and S7 of 95_test_vectors.md: what a store wrote, a load from the same base and offset
returns, extended as the load says, in both byte orders and at every admitted address. -/
def Obligations.StoreThenLoadReturnsTheValue : Prop :=
  ∀ (s : State) (rs rt rd : RegIdx) (imm : Imm16) (a b : Word), readReg s rs = .ok a → readReg s rt = .ok b →
    (admission s.params.memAdmit (effectiveAddress a imm) .word = none →
      ∃ t u, exec (.sw rs rt imm) s = .next t ∧ exec (.lw rs rd imm) t = .next u ∧ WritesOnly t u rd b) ∧
    (admission s.params.memAdmit (effectiveAddress a imm) .half = none →
      ∃ t u v, exec (.sh rs rt imm) s = .next t ∧
        exec (.lh rs rd imm) t = .next u ∧ WritesOnly t u rd ((b.extractLsb' 0 16).signExtend 32) ∧
        exec (.lhu rs rd imm) t = .next v ∧ WritesOnly t v rd ((b.extractLsb' 0 16).setWidth 32)) ∧
    (admission s.params.memAdmit (effectiveAddress a imm) .byte = none →
      ∃ t u v, exec (.sb rs rt imm) s = .next t ∧
        exec (.lb rs rd imm) t = .next u ∧ WritesOnly t u rd ((b.extractLsb' 0 8).signExtend 32) ∧
        exec (.lbu rs rd imm) t = .next v ∧ WritesOnly t v rd ((b.extractLsb' 0 8).setWidth 32))

/-- R53, R196 (decision D23): a stored word is what a later fetch at its address reads, with no fence. -/
def Obligations.LaterFetchSeesAStore : Prop :=
  ∀ (s : State) (rs rt : RegIdx) (imm : Imm16) (a b : Word), readReg s rs = .ok a → readReg s rt = .ok b →
    admission s.params.memAdmit (effectiveAddress a imm) .word = none → (effectiveAddress a imm).toNat % 4 = 0 →
    ∃ t, exec (.sw rs rt imm) s = .next t ∧ fetch { t with pc := effectiveAddress a imm } = .ok b

/-! ### Faults (60_exceptions.md) -/

/-- R84, R175 (decision D34): a register rs without a value ends every one of the eighteen, first of all faults. -/
def Obligations.RsFaultComesFirst : Prop :=
  ∀ (i : Instr) (s : State), i.rs ≠ 0#5 → s.regs[i.rs.toNat]'i.rs.isLt = none → exec i s = .fault (.regFault i.rs)

/-- R83, R175, R176 (decision D34): in a branch or a store with a readable rs, a register rt without a value faults next,
whatever the address; the other instructions do not read rt and never fault on it. -/
def Obligations.RtFaultComesSecond : Prop :=
  ∀ (i : Instr) (s : State) (a : Word), readReg s i.rs = .ok a →
    i.rt ≠ 0#5 → s.regs[i.rt.toNat]'i.rt.isLt = none →
    (i.handler.family = .branch ∨ i.handler.family = .store → exec i s = .fault (.regFault i.rt)) ∧
    (i.handler.family = .alu → ∃ t, exec i s = .next t) ∧
    (i.handler.family = .load → exec i s ≠ .fault (.regFault i.rt))

/-- R45, R124 to R130, R175 (decisions D3, D4, D34): under the default `MEM_ADMIT` a misaligned halfword or word access
faults as `alignment`, and an aligned load that touches a byte without a value faults as `access`. -/
def Obligations.MisalignedAndUnvaluedAccessesFault : Prop :=
  ∀ (s : State) (rs rt : RegIdx) (imm : Imm16) (a : Word), s.params.memAdmit = .aligned → readReg s rs = .ok a →
    ((effectiveAddress a imm).toNat % 2 ≠ 0 →
      exec (.lh rs rt imm) s = .fault (.memFault (effectiveAddress a imm) .half .alignment) ∧
      exec (.lhu rs rt imm) s = .fault (.memFault (effectiveAddress a imm) .half .alignment) ∧
      ∀ b, readReg s rt = .ok b →
        exec (.sh rs rt imm) s = .fault (.memFault (effectiveAddress a imm) .half .alignment)) ∧
    ((effectiveAddress a imm).toNat % 4 ≠ 0 →
      exec (.lw rs rt imm) s = .fault (.memFault (effectiveAddress a imm) .word .alignment) ∧
      ∀ b, readReg s rt = .ok b →
        exec (.sw rs rt imm) s = .fault (.memFault (effectiveAddress a imm) .word .alignment)) ∧
    (s.mem.read (byteAddress (effectiveAddress a imm) 0) = none →
      exec (.lb rs rt imm) s = .fault (.memFault (effectiveAddress a imm) .byte .access) ∧
      exec (.lbu rs rt imm) s = .fault (.memFault (effectiveAddress a imm) .byte .access)) ∧
    (∀ k, k < 2 → (effectiveAddress a imm).toNat % 2 = 0 →
      s.mem.read (byteAddress (effectiveAddress a imm) k) = none →
      exec (.lh rs rt imm) s = .fault (.memFault (effectiveAddress a imm) .half .access) ∧
      exec (.lhu rs rt imm) s = .fault (.memFault (effectiveAddress a imm) .half .access)) ∧
    (∀ k, k < 4 → (effectiveAddress a imm).toNat % 4 = 0 →
      s.mem.read (byteAddress (effectiveAddress a imm) k) = none →
      exec (.lw rs rt imm) s = .fault (.memFault (effectiveAddress a imm) .word .access))

/-- R170, R171 (decision D20): over all instructions, the only faults are RegFault(rs), in branches and stores RegFault(rt),
and in loads and stores MemFault at the effective address; nothing that decodes is refused. -/
def Obligations.OnlyTheSpecsFaultsAndNoRefusal : Prop :=
  ∀ (i : Instr) (s : State),
    (∀ r, exec i s ≠ .refused r) ∧
    (∀ f, exec i s = .fault f →
      f = .regFault i.rs ∨
      (f = .regFault i.rt ∧ (i.handler.family = .branch ∨ i.handler.family = .store)) ∨
      ((i.handler.family = .load ∨ i.handler.family = .store) ∧
        ∃ a n kind, readReg s i.rs = .ok a ∧ f = .memFault (effectiveAddress a i.imm) n kind))

/-- From R173: an outcome Fault is a collaborator's, unmodified by the block and by the fetch loop, and a run that stops in
it has the registers, memory, pc and parameters of before the step. That a collaborator's fault is always the outcome is
said by `LoadCommonBehaviour`, `StoreCommonBehaviour`, `RsFaultComesFirst` and `RtFaultComesSecond`. -/
def Obligations.FaultsCommitNothingAndPropagate : Prop :=
  (∀ (i : Instr) (s : State) (f : Fault), exec i s = .fault f →
    readReg s i.rs = .error f ∨ readReg s i.rt = .error f ∨
    ∃ a n, readReg s i.rs = .ok a ∧
      (memRead s (effectiveAddress a i.imm) n = .error f ∨
        ∃ v, memWrite s (effectiveAddress a i.imm) n v = .error f)) ∧
  (∀ (s : State) (w : Word) (f : Fault), fetch s = .ok w → runWord w s = .fault f →
    step s = .fault f ∧
    ∀ (endPc : Word) (bound : Nat), s.pc ≠ endPc →
      ∃ s', run endPc (bound + 1) s = .faulted s' f ∧
        s'.regs = s.regs ∧ s'.mem = s.mem ∧ s'.pc = s.pc ∧ s'.params = s.params)

/-! ### Text (44_disassembly.md) -/

/-- R151: the opcode name of each of the eighteen handlers. -/
def Obligations.MnemonicOfEachHandler : Prop :=
  mnemonic .lui = "lui" ∧ mnemonic .addi = "addi" ∧ mnemonic .addiu = "addiu" ∧ mnemonic .slti = "slti" ∧
  mnemonic .sltiu = "sltiu" ∧ mnemonic .andi = "andi" ∧ mnemonic .ori = "ori" ∧ mnemonic .xori = "xori" ∧
  mnemonic .beq = "beq" ∧ mnemonic .bne = "bne" ∧ mnemonic .lb = "lb" ∧ mnemonic .lbu = "lbu" ∧
  mnemonic .lh = "lh" ∧ mnemonic .lhu = "lhu" ∧ mnemonic .lw = "lw" ∧ mnemonic .sb = "sb" ∧
  mnemonic .sh = "sh" ∧ mnemonic .sw = "sw"

/-- R154 to R157 (decisions D10 to D14): the text of every completed step, spelled out under the default `ASM_STYLE` and any
`REG_NAME`: the ALU form, also for branches and lui, and the memory form for loads and stores. -/
def Obligations.TextForms : Prop :=
  ∀ (i : Instr) (s t : State), exec i s = .next t → s.params.asmStyle = defaultAsmStyle →
    (i.handler.family = .alu ∨ i.handler.family = .branch →
      t.asmText = some (mnemonic i.handler ++ " " ++ s.params.regNames[i.rt.toNat]'i.rt.isLt ++ ", " ++
        s.params.regNames[i.rs.toNat]'i.rs.isLt ++ ", " ++
        ("0x" ++ String.ofList (hexDigits false i.imm)))) ∧
    (i.handler.family = .load ∨ i.handler.family = .store →
      t.asmText = some (mnemonic i.handler ++ " " ++ s.params.regNames[i.rt.toNat]'i.rt.isLt ++ ", " ++
        ("0x" ++ String.ofList (hexDigits false i.imm)) ++
        "(" ++ s.params.regNames[i.rs.toNat]'i.rs.isLt ++ ")"))

/-- From R150: every completed step of every instruction sets the text, and under given parameters the text is a function
of the handler and the fields rs, rt and imm16 alone: of no register value and of no memory. `TextForms` says which text
under the default `ASM_STYLE`. -/
def Obligations.EveryStepRendersFromItsFields : Prop :=
  ∀ p : Params, ∃ f : Handler → RegIdx → RegIdx → Imm16 → String,
    ∀ (i : Instr) (s t : State), s.params = p → exec i s = .next t →
      t.asmText = some (f i.handler i.rs i.rt i.imm)

/-- R159 (C5): where a space follows the mnemonic, the first token of the text of a completed step is the mnemonic, and the
text is not empty. -/
def Obligations.FirstTokenIsTheMnemonic : Prop :=
  ∀ (i : Instr) (s t : State), exec i s = .next t → s.params.asmStyle.gap = " " →
    ∃ text, t.asmText = some text ∧ text ≠ "" ∧
      text.toList.takeWhile (fun c => c ≠ ' ') = (mnemonic i.handler).toList

/-- R152 (decision D10): the immediate is written as exactly 4 hexadecimal digits, lowercase in the spec's spelling and
capitals in the other one of `ASM_STYLE`, which read back as the raw field. -/
def Obligations.ImmediateIsFourHexDigits : Prop :=
  ∀ (upper : Bool) (i : Imm16), (hexDigits upper i).length = 4 ∧
    (∀ c ∈ hexDigits upper i, c ∈ (if upper then "0123456789ABCDEF" else "0123456789abcdef").toList) ∧
    (hexDigits upper i).foldl (fun n c =>
      16 * n + (if c.toNat < 58 then c.toNat - 48 else if c.toNat < 91 then c.toNat - 55 else c.toNat - 87)) 0 =
      i.toNat

/-- From R158 and R195: two states that differ only in the text, the latch, `REG_NAME` and `ASM_STYLE` make the same step: the
same registers, pc and memory, or the same fault or refusal. So no output of a step depends on the text. -/
def Obligations.TextNeverAffectsExecution : Prop :=
  ∀ s s' : State, AgreeOnExecution s s' → SameExecution (step s) (step s')

/-! ### The whole machine -/

/-- From R80: the operand latch after a completed step is what `Decode` takes from the word and x[rs], and the RegFault of the
read of x[rs] is the outcome of the step. That the latch still stands in the state after the step is the model's choice
(log entry 11, DEDUCED: R20 and R32 call `ops` a per-step value). -/
def Obligations.LatchHoldsTheDecodedOperands : Prop :=
  ∀ (w : Word) (i : Instr) (s : State), decode w = .ok i →
    (∀ a t, readReg s (w.extractLsb' 21 5) = .ok a → exec i s = .next t →
      t.ops = some { src1Reg := w.extractLsb' 21 5, src1Val := a, immRaw := w.extractLsb' 0 16,
                     immZext := (w.extractLsb' 0 16).setWidth 32, destReg := w.extractLsb' 16 5 }) ∧
    (∀ f, readReg s (w.extractLsb' 21 5) = .error f → exec i s = .fault f)

/-- R23, R86: over all instructions, the registers other than x[rt] are kept, x[rt] is kept by branches and stores, memory
is kept by all but stores, the pc by all but branches, and the parameters by all. -/
def Obligations.FrameOfEveryInstruction : Prop :=
  ∀ (i : Instr) (s t : State), exec i s = .next t →
    (∀ j, j ≠ i.rt → readReg t j = readReg s j) ∧
    (i.handler.family = .branch ∨ i.handler.family = .store → SameRegisters s t) ∧
    (i.handler.family ≠ .store → SameMemory s t) ∧
    (i.handler.family ≠ .branch → t.pc = s.pc) ∧
    t.params = s.params

/-- R27, R55, R198: where the four bytes at an aligned pc are readable and decode to i, one step is `exec` of i at that
state, and the pc of the next state is then moved on by `PC_STEP`. -/
def Obligations.StepRunsTheDecodedInstruction : Prop :=
  ∀ (s : State) (b0 b1 b2 b3 : Byte) (i : Instr), s.pc.toNat % 4 = 0 →
    admission s.params.memAdmit s.pc .word = none →
    s.mem.read (byteAddress s.pc 0) = some b0 → s.mem.read (byteAddress s.pc 1) = some b1 →
    s.mem.read (byteAddress s.pc 2) = some b2 → s.mem.read (byteAddress s.pc 3) = some b3 →
    decode (wordOfBytes s.params.endian b0 b1 b2 b3) = .ok i →
    step s = match exec i s with
      | .next t => .next { t with pc := t.pc + t.params.pcStep }
      | .fault f => .fault f
      | .refused r => .refused r

/-- R27, R55 (decisions D23, D36): a fetch from an address that is not a multiple of 4 faults, and so does a fetch of a
byte without a value. -/
def Obligations.FetchFaults : Prop :=
  ∀ s : State,
    (s.pc.toNat % 4 ≠ 0 → step s = .fault (.fetchFault s.pc .alignment)) ∧
    (∀ k, s.pc.toNat % 4 = 0 → admission s.params.memAdmit s.pc .word = none → k < 4 →
      s.mem.read (byteAddress s.pc k) = none → step s = .fault (.fetchFault s.pc .access))

/-- R21, R42, R115: from every state, whatever it is, a step keeps memory canonical, the slot of register 0 at zero, and the
pc a multiple of 4. -/
def Obligations.StepKeepsTheInvariant : Prop :=
  ∀ s t : State, Inv s → step s = .next t → Inv t

/-- The reset state meets the invariant (its pc and registers are the model's choice, log entries 2 and 3). -/
def Obligations.ResetMeetsTheInvariant : Prop := Inv State.reset

/-- R22, R192: once every register holds a value, every step keeps it so, and no step ends in a RegFault. The registers of
the reset state hold values by the model's choice (log entry 2). -/
def Obligations.ValuedRegistersStayValued : Prop :=
  RegistersValued State.reset ∧
  ∀ s : State, RegistersValued s →
    (∀ t, step s = .next t → RegistersValued t) ∧ (∀ j, step s ≠ .fault (.regFault j))

/-- R35, R192 (decisions D9, D4, D17, D26): the state at the start of a run, for every `REG_INIT`, `MEM_INIT` and `RESET_PC`;
and the parameters of the reset state are the defaults of R9, with the names of R153 and the style of R152 and R154
(decisions D2, D3, D5, D7, D10, D11). That they stand in State is log entry 7. -/
def Obligations.LaunchStateIsTheSpecsTable : Prop :=
  (∀ (p : Params) (regInit : RegIdx → Option Word) (memInit : Memory) (pc : Word),
    let s := State.launch p regInit memInit pc
    readReg s 0#5 = .ok 0#32 ∧
    (∀ i v, i ≠ 0#5 → regInit i = some v → readReg s i = .ok v) ∧
    (∀ i, i ≠ 0#5 → regInit i = none → readReg s i = .error (.regFault i)) ∧
    s.pc = pc ∧ s.mem = memInit ∧ s.params = p ∧ s.ops = none ∧ s.asmText = none) ∧
  State.reset.params.branchDispMode = .sext ∧ State.reset.params.endian = .little ∧
  State.reset.params.memAdmit = .aligned ∧ State.reset.params.pcStep = 4#32 ∧
  State.reset.params.regNames.toList =
    ["$zero", "$at", "$v0", "$v1", "$a0", "$a1", "$a2", "$a3"] ++ ["$t0", "$t1", "$t2", "$t3", "$t4", "$t5", "$t6", "$t7"] ++
    ["$s0", "$s1", "$s2", "$s3", "$s4", "$s5", "$s6", "$s7"] ++ ["$t8", "$t9", "$k0", "$k1", "$gp", "$sp", "$fp", "$ra"] ∧
  State.reset.params.asmStyle = { gap := " ", separator := ", ", hexPrefix := "0x", upperCase := false }

/-- R198 (decision D38): a run ends well exactly when the pc equals `END_PC`: only there, in a state reached by steps that all
completed; at once where the pc is `END_PC`; and elsewhere, after a step that completes, where the run from the next
state ends well. The bound on the steps is the model's choice (log entry 18). -/
def Obligations.RunEndsWellOnlyAtEndPc : Prop :=
  (∀ (endPc : Word) (bound : Nat) (s t : State), run endPc bound s = .endedWell t →
    t.pc = endPc ∧ ∃ n, n ≤ bound ∧ Sys2Proof.core.run n s = .next t) ∧
  (∀ (endPc : Word) (bound : Nat) (s : State), s.pc = endPc → run endPc bound s = .endedWell s) ∧
  (∀ (endPc : Word) (bound : Nat) (s t u : State), s.pc ≠ endPc → step s = .next t →
    run endPc bound t = .endedWell u → run endPc (bound + 1) s = .endedWell u)
end

