-- ==== Sys2Proof/Laws/Encoding.lean ====
section
/-! SUPPORT. The handler table read in both directions (30_encoding.md R65). -/

namespace Sys2Proof

@[simp] theorem selectHandler_opcode (h : Handler) : selectHandler h.opcode = some h := by
  cases h <;> decide

/-- The handler selected for an opcode has that opcode. -/
theorem opcode_of_selectHandler {o : BitVec 6} {h : Handler} (e : selectHandler o = some h) : h.opcode = o := by
  simpa using List.find?_some e

@[simp] theorem handler_build (h : Handler) (rs rt : RegIdx) (imm : Imm16) : (h.build rs rt imm).handler = h := by
  cases h <;> rfl
@[simp] theorem rs_build (h : Handler) (rs rt : RegIdx) (imm : Imm16) : (h.build rs rt imm).rs = rs := by
  cases h <;> rfl
@[simp] theorem rt_build (h : Handler) (rs rt : RegIdx) (imm : Imm16) : (h.build rs rt imm).rt = rt := by
  cases h <;> rfl
@[simp] theorem imm_build (h : Handler) (rs rt : RegIdx) (imm : Imm16) : (h.build rs rt imm).imm = imm := by
  cases h <;> rfl

/-- An instruction is its handler and its three fields. -/
@[simp] theorem build_fields (i : Instr) : i.handler.build i.rs i.rt i.imm = i := by
  cases i <;> rfl

/-- No two handlers have the same opcode, so no word has two meanings. -/
theorem opcode_injective {h g : Handler} (e : h.opcode = g.opcode) : h = g := by
  have := selectHandler_opcode h
  rw [e, selectHandler_opcode] at this
  exact (Option.some.inj this).symm

/-- Each bit of a word comes from the one field R61 gives it. -/
theorem joinFields_bit (o : BitVec 6) (rs rt : RegIdx) (imm : Imm16) (k : Nat) :
    (joinFields o rs rt imm).getLsbD k =
      if k < 16 then imm.getLsbD k
      else if k < 21 then rt.getLsbD (k - 16)
      else if k < 26 then rs.getLsbD (k - 21)
      else o.getLsbD (k - 26) := by
  change (o ++ rs ++ rt ++ imm : BitVec (6 + 5 + 5 + 16)).getLsbD k = _
  simp only [BitVec.getLsbD_append]
  by_cases h1 : k < 16
  · simp [h1]
  by_cases h2 : k < 21
  · rw [if_neg h1, if_pos (by omega), if_neg h1, if_pos h2]
  by_cases h3 : k < 26
  · rw [if_neg h1, if_neg (by omega), if_pos (by omega), if_neg h1, if_neg h2, if_pos h3, Nat.sub_sub]
  · rw [if_neg h1, if_neg (by omega), if_neg (by omega), if_neg h1, if_neg h2, if_neg h3, Nat.sub_sub, Nat.sub_sub]

@[simp] theorem fieldOpcode_joinFields (o : BitVec 6) (rs rt : RegIdx) (imm : Imm16) :
    fieldOpcode (joinFields o rs rt imm) = o := by
  apply BitVec.eq_of_getLsbD_eq
  intro k hk
  rw [fieldOpcode, BitVec.getLsbD_extractLsb', joinFields_bit, if_neg (by omega), if_neg (by omega), if_neg (by omega)]
  simp [hk]

@[simp] theorem fieldRs_joinFields (o : BitVec 6) (rs rt : RegIdx) (imm : Imm16) :
    fieldRs (joinFields o rs rt imm) = rs := by
  apply BitVec.eq_of_getLsbD_eq
  intro k hk
  rw [fieldRs, BitVec.getLsbD_extractLsb', joinFields_bit, if_neg (by omega), if_neg (by omega), if_pos (by omega)]
  simp [hk]

@[simp] theorem fieldRt_joinFields (o : BitVec 6) (rs rt : RegIdx) (imm : Imm16) :
    fieldRt (joinFields o rs rt imm) = rt := by
  apply BitVec.eq_of_getLsbD_eq
  intro k hk
  rw [fieldRt, BitVec.getLsbD_extractLsb', joinFields_bit, if_neg (by omega), if_pos (by omega)]
  simp [hk]

@[simp] theorem fieldImm_joinFields (o : BitVec 6) (rs rt : RegIdx) (imm : Imm16) :
    fieldImm (joinFields o rs rt imm) = imm := by
  apply BitVec.eq_of_getLsbD_eq
  intro k hk
  rw [fieldImm, BitVec.getLsbD_extractLsb', joinFields_bit, if_pos (by omega)]
  simp [hk]

end Sys2Proof
end

