-- ==== Sys2Proof/Laws/State.lean ====
section
/-! SUPPORT. One lemma for each field of each update of State, so that no proof unfolds an update. -/

namespace Sys2Proof.Machine

@[simp] theorem commit_regs (h : Handler) (ops : OperandLatch) (s : State) : (commit h ops s).regs = s.regs := rfl
@[simp] theorem commit_pc (h : Handler) (ops : OperandLatch) (s : State) : (commit h ops s).pc = s.pc := rfl
@[simp] theorem commit_mem (h : Handler) (ops : OperandLatch) (s : State) : (commit h ops s).mem = s.mem := rfl
@[simp] theorem commit_ops (h : Handler) (ops : OperandLatch) (s : State) : (commit h ops s).ops = some ops := rfl
@[simp] theorem commit_params (h : Handler) (ops : OperandLatch) (s : State) : (commit h ops s).params = s.params := rfl
@[simp] theorem commit_asmText (h : Handler) (ops : OperandLatch) (s : State) :
    (commit h ops s).asmText = some (render h s.params ops) := rfl

@[simp] theorem writeReg_pc (s : State) (i : RegIdx) (v : Word) : (writeReg s i v).pc = s.pc := by
  unfold writeReg; split <;> rfl
@[simp] theorem writeReg_mem (s : State) (i : RegIdx) (v : Word) : (writeReg s i v).mem = s.mem := by
  unfold writeReg; split <;> rfl
@[simp] theorem writeReg_ops (s : State) (i : RegIdx) (v : Word) : (writeReg s i v).ops = s.ops := by
  unfold writeReg; split <;> rfl
@[simp] theorem writeReg_asmText (s : State) (i : RegIdx) (v : Word) : (writeReg s i v).asmText = s.asmText := by
  unfold writeReg; split <;> rfl
@[simp] theorem writeReg_params (s : State) (i : RegIdx) (v : Word) : (writeReg s i v).params = s.params := by
  unfold writeReg; split <;> rfl

@[simp] theorem placeWord_regs (s : State) (w : Word) : (placeWord s w).regs = s.regs := rfl
@[simp] theorem placeWord_pc (s : State) (w : Word) : (placeWord s w).pc = s.pc := rfl
@[simp] theorem placeWord_ops (s : State) (w : Word) : (placeWord s w).ops = s.ops := rfl
@[simp] theorem placeWord_asmText (s : State) (w : Word) : (placeWord s w).asmText = s.asmText := rfl
@[simp] theorem placeWord_params (s : State) (w : Word) : (placeWord s w).params = s.params := rfl

@[simp] theorem launch_pc (p : Params) (r : RegIdx → Option Word) (m : Memory) (a : Word) :
    (State.launch p r m a).pc = a := rfl
@[simp] theorem launch_mem (p : Params) (r : RegIdx → Option Word) (m : Memory) (a : Word) :
    (State.launch p r m a).mem = m := rfl
@[simp] theorem launch_ops (p : Params) (r : RegIdx → Option Word) (m : Memory) (a : Word) :
    (State.launch p r m a).ops = none := rfl
@[simp] theorem launch_asmText (p : Params) (r : RegIdx → Option Word) (m : Memory) (a : Word) :
    (State.launch p r m a).asmText = none := rfl
@[simp] theorem launch_params (p : Params) (r : RegIdx → Option Word) (m : Memory) (a : Word) :
    (State.launch p r m a).params = p := rfl

end Sys2Proof.Machine
end

