-- ==== Sys2Proof/Laws/Registers.lean ====
section
/-! SUPPORT. What a register read gives after each update (10_state.md R21, R22). -/

namespace Sys2Proof.Machine

/-- A register read depends on the register file alone. -/
theorem readReg_congr {s t : State} (h : t.regs = s.regs) (i : RegIdx) : readReg t i = readReg s i := by
  simp [readReg, h]

@[simp] theorem readReg_zero (s : State) : readReg s 0#5 = .ok 0#32 := by simp [readReg]

@[simp] theorem readReg_commit (h : Handler) (ops : OperandLatch) (s : State) (i : RegIdx) :
    readReg (commit h ops s) i = readReg s i := readReg_congr rfl i

@[simp] theorem readReg_setPc (s : State) (p : Word) (i : RegIdx) :
    readReg { s with pc := p } i = readReg s i := readReg_congr rfl i

@[simp] theorem readReg_setMem (s : State) (m : Memory) (i : RegIdx) :
    readReg { s with mem := m } i = readReg s i := readReg_congr rfl i

@[simp] theorem writeReg_zero (s : State) (v : Word) : writeReg s 0#5 v = s := by simp [writeReg]

/-- Reading the register just written: zero for index 0, else the value. -/
theorem readReg_writeReg_same (s : State) (i : RegIdx) (v : Word) :
    readReg (writeReg s i v) i = .ok (if i = 0#5 then 0#32 else v) := by
  unfold writeReg readReg
  split
  · rfl
  · simp

/-- Reading any other register. -/
theorem readReg_writeReg_other (s : State) {i j : RegIdx} (v : Word) (h : j ≠ i) :
    readReg (writeReg s i v) j = readReg s j := by
  have hn : i.toNat ≠ j.toNat := fun e => h (BitVec.eq_of_toNat_eq e.symm)
  unfold writeReg
  split
  · rfl
  · simp [readReg, hn]

/-- A write never changes the slot of register 0. -/
theorem writeReg_zeroSlot (s : State) (i : RegIdx) (v : Word) :
    (writeReg s i v).regs[0] = s.regs[0] := by
  unfold writeReg
  split
  · rfl
  · rename_i h
    have hn : i.toNat ≠ 0 := fun e => h (BitVec.eq_of_toNat_eq (by simpa using e))
    simp [hn]

/-- A write takes no value away from a register. -/
theorem writeReg_keeps_value (s : State) (i j : RegIdx) (v : Word) (h : (readReg s j).isOk = true) :
    (readReg (writeReg s i v) j).isOk = true := by
  by_cases e : j = i
  · subst e; rw [readReg_writeReg_same]; rfl
  · rwa [readReg_writeReg_other s v e]

/-- The one fault of a register read (R22). -/
theorem readReg_error {s : State} {i : RegIdx} {f : Fault} (h : readReg s i = .error f) :
    i ≠ 0#5 ∧ s.regs[i.toNat]'i.isLt = none ∧ f = .regFault i := by
  unfold readReg at h
  split at h
  · cases h
  · split at h
    · cases h
    · cases h; exact ⟨‹_›, ‹_›, rfl⟩

end Sys2Proof.Machine
end

