-- ==== Sys2Proof/Laws/Memory.lean ====
section
/-! SUPPORT. Read after write, and that every memory operation keeps the canonical form (20_memory.md R44 to R50). -/

namespace Sys2Proof.Machine

/-- The byte just written reads back. -/
theorem read_write_same (m : Memory) (a : Nat) (b : Byte) : (m.write a b).read a = some b := by
  induction m with
  | nil => simp [Memory.write, Memory.read]
  | cons c m ih =>
    obtain ⟨k, v⟩ := c
    unfold Memory.write
    split
    · simp [Memory.read]
    · split
      · simp [Memory.read]
      · rename_i h2
        simp [Memory.read, Ne.symm h2, ih]

/-- Every other byte reads as before. -/
theorem read_write_other (m : Memory) {a x : Nat} (b : Byte) (h : x ≠ a) : (m.write a b).read x = m.read x := by
  induction m with
  | nil => simp [Memory.write, Memory.read, Ne.symm h]
  | cons c m ih =>
    obtain ⟨k, v⟩ := c
    unfold Memory.write
    split
    · simp [Memory.read, Ne.symm h]
    · split
      · rename_i h2
        subst h2
        simp [Memory.read, Ne.symm h]
      · simp [Memory.read, ih]

/-- One write keeps the addresses rising from any bound not above the address written. -/
theorem wfFrom_write {m : Memory} {lo a : Nat} (b : Byte) (hm : Memory.wfFrom lo m = true) (hlo : lo ≤ a)
    (ha : a < 2 ^ 32) : Memory.wfFrom lo (m.write a b) = true := by
  induction m generalizing lo with
  | nil => simp [Memory.write, Memory.wfFrom]; omega
  | cons c m ih =>
    obtain ⟨k, v⟩ := c
    simp only [Memory.wfFrom, Bool.and_eq_true, decide_eq_true_eq] at hm
    obtain ⟨⟨hk, hk32⟩, hrest⟩ := hm
    unfold Memory.write
    split
    · rename_i h
      simp only [Memory.wfFrom, Bool.and_eq_true, decide_eq_true_eq]
      exact ⟨⟨hlo, ha⟩, ⟨h, hk32⟩, hrest⟩
    · split
      · rename_i h
        subst h
        simp only [Memory.wfFrom, Bool.and_eq_true, decide_eq_true_eq]
        exact ⟨⟨hlo, ha⟩, hrest⟩
      · simp only [Memory.wfFrom, Bool.and_eq_true, decide_eq_true_eq]
        exact ⟨⟨hk, hk32⟩, ih hrest (by omega)⟩

/-- A write keeps the canonical form. -/
theorem wf_write {m : Memory} {a : Nat} (b : Byte) (hm : m.wf = true) (ha : a < 2 ^ 32) : (m.write a b).wf = true :=
  wfFrom_write b hm (Nat.zero_le a) ha

theorem byteAddress_lt (a : Word) (k : Nat) : byteAddress a k < 2 ^ 32 := (a + BitVec.ofNat 32 k).isLt

/-- The bytes of one access lie at different addresses. -/
theorem byteAddress_inj {a : Word} {j k : Nat} (hj : j < 4) (hk : k < 4) (h : byteAddress a j = byteAddress a k) :
    j = k := by
  unfold byteAddress at h
  simp only [BitVec.toNat_add, BitVec.toNat_ofNat] at h
  omega

/-- Writing pairs below 2^32 keeps the canonical form. -/
theorem wf_writeAll {m : Memory} {cells : List (Nat × Byte)} (hm : m.wf = true) (hc : ∀ c ∈ cells, c.1 < 2 ^ 32) :
    (m.writeAll cells).wf = true := by
  induction cells generalizing m with
  | nil => exact hm
  | cons c cells ih =>
    obtain ⟨a, b⟩ := c
    exact ih (wf_write b hm (hc (a, b) (by simp))) (fun c h => hc c (by simp [h]))

/-- Addresses outside the pairs read as before. -/
theorem read_writeAll_other (m : Memory) {cells : List (Nat × Byte)} {x : Nat} (h : ∀ c ∈ cells, x ≠ c.1) :
    (m.writeAll cells).read x = m.read x := by
  induction cells generalizing m with
  | nil => rfl
  | cons c cells ih =>
    obtain ⟨a, b⟩ := c
    rw [Memory.writeAll, ih _ (fun c h' => h c (by simp [h'])), read_write_other _ _ (h (a, b) (by simp))]

/-- Every pair of an access lies at one of its addresses. -/
theorem access_cell_address {a : Word} {n : Width} {bs : List Byte} {c : Nat × Byte}
    (h : c ∈ (accessAddresses a n).zip bs) : ∃ k, k < n.bytes ∧ c.1 = byteAddress a k := by
  have := (List.of_mem_zip (a := c.1) (b := c.2) h).1
  simp only [accessAddresses, List.mem_map, List.mem_range] at this
  obtain ⟨k, hk, e⟩ := this
  exact ⟨k, hk, e.symm⟩

/-- The write of an access keeps the canonical form. -/
theorem wf_writeAccess {m : Memory} (a : Word) (n : Width) (bs : List Byte) (hm : m.wf = true) :
    (m.writeAll ((accessAddresses a n).zip bs)).wf = true :=
  wf_writeAll hm fun c h => by
    obtain ⟨k, _, e⟩ := access_cell_address h
    rw [e]; exact byteAddress_lt a k

/-- The word placed for the next fetch keeps the canonical form. -/
theorem wf_placeWord (s : State) (w : Word) (h : s.mem.wf = true) : (placeWord s w).mem.wf = true :=
  wf_writeAccess _ _ _ h

/-- Everything `MemWrite` can do (R44 to R46): it is refused and nothing is written, or memory alone changes. -/
theorem memWrite_cases (s : State) (a : Word) (n : Width) (v : BitVec n.bits) :
    (∃ kind, admission s.params.memAdmit a n = some kind ∧ memWrite s a n v = .error (.memFault a n kind)) ∨
    (admission s.params.memAdmit a n = none ∧
      memWrite s a n v = .ok { s with mem := s.mem.writeAll ((accessAddresses a n).zip (splitBytes s.params.endian n.bytes v)) }) := by
  unfold memWrite
  split
  · exact .inl ⟨_, ‹_›, rfl⟩
  · exact .inr ⟨‹_›, rfl⟩

/-- Everything `MemRead` can do (R45): a value, or a `MemFault` with its own address and width. -/
theorem memRead_cases (s : State) (a : Word) (n : Width) :
    (∃ v, memRead s a n = .ok v) ∨ (∃ kind, memRead s a n = .error (.memFault a n kind)) := by
  unfold memRead
  split
  · exact .inl ⟨_, rfl⟩
  · exact .inr ⟨_, rfl⟩

/-- A refused read is the collaborator's fault, whatever the bytes hold (R45). -/
theorem memRead_refused {s : State} {a : Word} {n : Width} {kind : MemFaultKind}
    (h : admission s.params.memAdmit a n = some kind) : memRead s a n = .error (.memFault a n kind) := by
  simp [memRead, accessRead, h]

/-- A refused write is the collaborator's fault, and writes no byte (R45, R46). -/
theorem memWrite_refused {s : State} {a : Word} {n : Width} {kind : MemFaultKind} (v : BitVec n.bits)
    (h : admission s.params.memAdmit a n = some kind) : memWrite s a n v = .error (.memFault a n kind) := by
  simp [memWrite, h]

/-- Bytes that are read one by one are read together. -/
theorem readAll_ok (m : Memory) {l : List Nat} {f : Nat → Byte} (h : ∀ x ∈ l, m.read x = some (f x)) :
    m.readAll l = some (l.map f) := by
  induction l with
  | nil => rfl
  | cons y l ih =>
    simp [Memory.readAll, h y (by simp), ih (fun x hx => h x (by simp [hx]))]

/-- One byte without a value is enough for no value at all. -/
theorem readAll_none (m : Memory) {l : List Nat} {x : Nat} (h : x ∈ l) (hx : m.read x = none) :
    m.readAll l = none := by
  induction l with
  | nil => cases h
  | cons y l ih =>
    simp only [Memory.readAll]
    rcases List.mem_cons.1 h with rfl | h
    · simp [hx]
    · simp [ih h]

/-- `MemRead` depends on memory and the parameters alone (R48). -/
theorem accessRead_congr {s t : State} (hm : t.mem = s.mem) (he : t.params.endian = s.params.endian)
    (ha : t.params.memAdmit = s.params.memAdmit) (a : Word) (n : Width) : accessRead t a n = accessRead s a n := by
  simp [accessRead, hm, he, ha]

end Sys2Proof.Machine
end

