-- ==== Sys2Proof/Laws/Executors.lean ====
section
/-! SUPPORT. What each executor can do, said once: the next state it answers, or the fault it passes on. -/

namespace Sys2Proof.Machine

@[simp] theorem finish_ok (t : State) : finish (.ok t) = .next t := rfl
@[simp] theorem finish_error (f : Fault) : finish (.error f) = .fault f := rfl

theorem latchOperands_ok {s : State} {rs rt : RegIdx} {imm : Imm16} {a : Word} (h : readReg s rs = .ok a) :
    latchOperands rs rt imm s = .ok (latchOf rs rt imm a) := by
  simp [latchOperands, h, bind, Except.bind, pure, Except.pure]

theorem latchOperands_error {s : State} {rs rt : RegIdx} {imm : Imm16} {f : Fault} (h : readReg s rs = .error f) :
    latchOperands rs rt imm s = .error f := by
  simp [latchOperands, h, bind, Except.bind]

theorem aluStep_ok {s : State} {h : Handler} {f : Word → Imm16 → Word} {rs rt : RegIdx} {imm : Imm16} {a : Word}
    (ha : readReg s rs = .ok a) :
    aluStep h f rs rt imm s = .next (commit h (latchOf rs rt imm a) (writeReg s rt (f a imm))) := by
  simp [aluStep, latchOperands_ok ha, bind, Except.bind, pure, Except.pure, latchOf]

theorem branchStep_ok {s : State} {h : Handler} {c : Word → Word → Bool} {rs rt : RegIdx} {imm : Imm16} {a b : Word}
    (ha : readReg s rs = .ok a) (hb : readReg s rt = .ok b) :
    branchStep h c rs rt imm s = .next (commit h (latchOf rs rt imm a)
      { s with pc := if c a b then s.pc + branchDisp s.params.branchDispMode imm else s.pc }) := by
  simp [branchStep, latchOperands_ok ha, hb, bind, Except.bind, pure, Except.pure, latchOf]

theorem loadStep_ok {s : State} {h : Handler} {n : Width} {e : BitVec n.bits → Word} {rs rt : RegIdx} {imm : Imm16}
    {a : Word} {v : BitVec n.bits} (ha : readReg s rs = .ok a) (hv : memRead s (effectiveAddress a imm) n = .ok v) :
    loadStep h n e rs rt imm s = .next (commit h (latchOf rs rt imm a) (writeReg s rt (e v))) := by
  simp [loadStep, latchOperands_ok ha, hv, bind, Except.bind, pure, Except.pure, latchOf]

theorem storeStep_ok {s t : State} {h : Handler} {n : Width} {rs rt : RegIdx} {imm : Imm16} {a b : Word}
    (ha : readReg s rs = .ok a) (hb : readReg s rt = .ok b)
    (ht : memWrite s (effectiveAddress a imm) n (b.setWidth n.bits) = .ok t) :
    storeStep h n rs rt imm s = .next (commit h (latchOf rs rt imm a) t) := by
  simp [storeStep, latchOperands_ok ha, hb, ht, bind, Except.bind, pure, Except.pure, latchOf]

/-- Everything an ALU-immediate instruction can do (R90). -/
theorem aluStep_cases (h : Handler) (f : Word → Imm16 → Word) (rs rt : RegIdx) (imm : Imm16) (s : State) :
    (∃ a, readReg s rs = .ok a ∧
      aluStep h f rs rt imm s = .next (commit h (latchOf rs rt imm a) (writeReg s rt (f a imm)))) ∨
    (∃ e, readReg s rs = .error e ∧ aluStep h f rs rt imm s = .fault e) := by
  cases ha : readReg s rs with
  | ok a => exact .inl ⟨a, rfl, aluStep_ok ha⟩
  | error e => exact .inr ⟨e, rfl, by simp [aluStep, latchOperands_error ha, bind, Except.bind]⟩

/-- Everything a branch can do (R111, R112). -/
theorem branchStep_cases (h : Handler) (c : Word → Word → Bool) (rs rt : RegIdx) (imm : Imm16) (s : State) :
    (∃ a b, readReg s rs = .ok a ∧ readReg s rt = .ok b ∧
      branchStep h c rs rt imm s = .next (commit h (latchOf rs rt imm a)
        { s with pc := if c a b then s.pc + branchDisp s.params.branchDispMode imm else s.pc })) ∨
    (∃ e, (readReg s rs = .error e ∨ ∃ a, readReg s rs = .ok a ∧ readReg s rt = .error e) ∧
      branchStep h c rs rt imm s = .fault e) := by
  cases ha : readReg s rs with
  | error e => exact .inr ⟨e, .inl rfl, by simp [branchStep, latchOperands_error ha, bind, Except.bind]⟩
  | ok a =>
    cases hb : readReg s rt with
    | ok b => exact .inl ⟨a, b, rfl, rfl, branchStep_ok ha hb⟩
    | error e =>
      exact .inr ⟨e, .inr ⟨a, rfl, rfl⟩, by simp [branchStep, latchOperands_ok ha, hb, bind, Except.bind]⟩

/-- Everything a load can do (R121). -/
theorem loadStep_cases (h : Handler) (n : Width) (ext : BitVec n.bits → Word) (rs rt : RegIdx) (imm : Imm16)
    (s : State) :
    (∃ a v, readReg s rs = .ok a ∧ memRead s (effectiveAddress a imm) n = .ok v ∧
      loadStep h n ext rs rt imm s = .next (commit h (latchOf rs rt imm a) (writeReg s rt (ext v)))) ∨
    (∃ e, (readReg s rs = .error e ∨
        ∃ a, readReg s rs = .ok a ∧ memRead s (effectiveAddress a imm) n = .error e) ∧
      loadStep h n ext rs rt imm s = .fault e) := by
  cases ha : readReg s rs with
  | error e => exact .inr ⟨e, .inl rfl, by simp [loadStep, latchOperands_error ha, bind, Except.bind]⟩
  | ok a =>
    cases hv : memRead s (effectiveAddress a imm) n with
    | ok v => exact .inl ⟨a, v, rfl, hv, loadStep_ok ha hv⟩
    | error e =>
      exact .inr ⟨e, .inr ⟨a, rfl, hv⟩,
        by simp [loadStep, latchOperands_ok ha, latchOf, hv, bind, Except.bind]⟩

/-- Everything a store can do (R127). -/
theorem storeStep_cases (h : Handler) (n : Width) (rs rt : RegIdx) (imm : Imm16) (s : State) :
    (∃ a b t, readReg s rs = .ok a ∧ readReg s rt = .ok b ∧
      memWrite s (effectiveAddress a imm) n (b.setWidth n.bits) = .ok t ∧
      storeStep h n rs rt imm s = .next (commit h (latchOf rs rt imm a) t)) ∨
    (∃ e, (readReg s rs = .error e ∨ ∃ a, readReg s rs = .ok a ∧ (readReg s rt = .error e ∨
        ∃ b, readReg s rt = .ok b ∧ memWrite s (effectiveAddress a imm) n (b.setWidth n.bits) = .error e)) ∧
      storeStep h n rs rt imm s = .fault e) := by
  cases ha : readReg s rs with
  | error e => exact .inr ⟨e, .inl rfl, by simp [storeStep, latchOperands_error ha, bind, Except.bind]⟩
  | ok a =>
    cases hb : readReg s rt with
    | error e =>
      exact .inr ⟨e, .inr ⟨a, rfl, .inl rfl⟩, by simp [storeStep, latchOperands_ok ha, hb, bind, Except.bind]⟩
    | ok b =>
      cases ht : memWrite s (effectiveAddress a imm) n (b.setWidth n.bits) with
      | ok t => exact .inl ⟨a, b, t, rfl, rfl, ht, storeStep_ok ha hb ht⟩
      | error e =>
        exact .inr ⟨e, .inr ⟨a, rfl, .inr ⟨b, rfl, ht⟩⟩,
          by simp [storeStep, latchOperands_ok ha, latchOf, hb, ht, bind, Except.bind]⟩

/-- Everything a fetch can do (R55). -/
theorem fetch_cases (s : State) :
    (∃ w, s.pc.toNat % 4 = 0 ∧ accessRead s s.pc .word = .ok w ∧ fetch s = .ok w) ∨
    (∃ kind, fetch s = .error (.fetchFault s.pc kind)) := by
  unfold fetch
  split
  · split
    · exact .inl ⟨_, ‹_›, ‹_›, rfl⟩
    · exact .inr ⟨_, rfl⟩
  · exact .inr ⟨_, rfl⟩

end Sys2Proof.Machine
end

