-- ==== Sys2Proof/Laws/Dispatch.lean ====
section
/-! SUPPORT. Each instruction as the shared executor it is, so that no proof unfolds `exec` or a meaning. -/

namespace Sys2Proof.Machine

theorem exec_lui (rs rt : RegIdx) (imm : Imm16) (s : State) :
    exec (.lui rs rt imm) s = aluStep .lui (fun _ i => upperHalf i) rs rt imm s := rfl
theorem exec_addi (rs rt : RegIdx) (imm : Imm16) (s : State) :
    exec (.addi rs rt imm) s = aluStep .addi (fun a i => a + sext32 i) rs rt imm s := rfl
theorem exec_addiu (rs rt : RegIdx) (imm : Imm16) (s : State) :
    exec (.addiu rs rt imm) s = aluStep .addiu (fun a i => a + sext32 i) rs rt imm s := rfl
theorem exec_slti (rs rt : RegIdx) (imm : Imm16) (s : State) :
    exec (.slti rs rt imm) s = aluStep .slti (fun a i => setLessSigned a (sext32 i)) rs rt imm s := rfl
theorem exec_sltiu (rs rt : RegIdx) (imm : Imm16) (s : State) :
    exec (.sltiu rs rt imm) s = aluStep .sltiu (fun a i => setLessUnsigned a (sext32 i)) rs rt imm s := rfl
theorem exec_andi (rs rt : RegIdx) (imm : Imm16) (s : State) :
    exec (.andi rs rt imm) s = aluStep .andi (fun a i => a &&& zext32 i) rs rt imm s := rfl
theorem exec_ori (rs rt : RegIdx) (imm : Imm16) (s : State) :
    exec (.ori rs rt imm) s = aluStep .ori (fun a i => a ||| zext32 i) rs rt imm s := rfl
theorem exec_xori (rs rt : RegIdx) (imm : Imm16) (s : State) :
    exec (.xori rs rt imm) s = aluStep .xori (fun a i => a ^^^ zext32 i) rs rt imm s := rfl
theorem exec_beq (rs rt : RegIdx) (imm : Imm16) (s : State) :
    exec (.beq rs rt imm) s = branchStep .beq wordsEqual rs rt imm s := rfl
theorem exec_bne (rs rt : RegIdx) (imm : Imm16) (s : State) :
    exec (.bne rs rt imm) s = branchStep .bne wordsDiffer rs rt imm s := rfl
theorem exec_lb (rs rt : RegIdx) (imm : Imm16) (s : State) :
    exec (.lb rs rt imm) s = loadStep .lb .byte (fun v => sext32 v) rs rt imm s := rfl
theorem exec_lbu (rs rt : RegIdx) (imm : Imm16) (s : State) :
    exec (.lbu rs rt imm) s = loadStep .lbu .byte (fun v => zext32 v) rs rt imm s := rfl
theorem exec_lh (rs rt : RegIdx) (imm : Imm16) (s : State) :
    exec (.lh rs rt imm) s = loadStep .lh .half (fun v => sext32 v) rs rt imm s := rfl
theorem exec_lhu (rs rt : RegIdx) (imm : Imm16) (s : State) :
    exec (.lhu rs rt imm) s = loadStep .lhu .half (fun v => zext32 v) rs rt imm s := rfl
theorem exec_lw (rs rt : RegIdx) (imm : Imm16) (s : State) :
    exec (.lw rs rt imm) s = loadStep .lw .word (fun v => v) rs rt imm s := rfl
theorem exec_sb (rs rt : RegIdx) (imm : Imm16) (s : State) :
    exec (.sb rs rt imm) s = storeStep .sb .byte rs rt imm s := rfl
theorem exec_sh (rs rt : RegIdx) (imm : Imm16) (s : State) :
    exec (.sh rs rt imm) s = storeStep .sh .half rs rt imm s := rfl
theorem exec_sw (rs rt : RegIdx) (imm : Imm16) (s : State) :
    exec (.sw rs rt imm) s = storeStep .sw .word rs rt imm s := rfl

/-- Everything `exec` can be (R85): one of the four executors of the instruction's family. -/
theorem exec_shape (i : Instr) :
    (i.handler.family = .alu ∧ ∃ f, ∀ s, exec i s = aluStep i.handler f i.rs i.rt i.imm s) ∨
    (i.handler.family = .branch ∧ ∃ c, ∀ s, exec i s = branchStep i.handler c i.rs i.rt i.imm s) ∨
    (i.handler.family = .load ∧ ∃ n e, ∀ s, exec i s = loadStep i.handler n e i.rs i.rt i.imm s) ∨
    (i.handler.family = .store ∧ ∃ n, ∀ s, exec i s = storeStep i.handler n i.rs i.rt i.imm s) := by
  cases i with
  | lui rs rt imm => exact .inl ⟨rfl, _, exec_lui rs rt imm⟩
  | addi rs rt imm => exact .inl ⟨rfl, _, exec_addi rs rt imm⟩
  | addiu rs rt imm => exact .inl ⟨rfl, _, exec_addiu rs rt imm⟩
  | slti rs rt imm => exact .inl ⟨rfl, _, exec_slti rs rt imm⟩
  | sltiu rs rt imm => exact .inl ⟨rfl, _, exec_sltiu rs rt imm⟩
  | andi rs rt imm => exact .inl ⟨rfl, _, exec_andi rs rt imm⟩
  | ori rs rt imm => exact .inl ⟨rfl, _, exec_ori rs rt imm⟩
  | xori rs rt imm => exact .inl ⟨rfl, _, exec_xori rs rt imm⟩
  | beq rs rt imm => exact .inr (.inl ⟨rfl, _, exec_beq rs rt imm⟩)
  | bne rs rt imm => exact .inr (.inl ⟨rfl, _, exec_bne rs rt imm⟩)
  | lb rs rt imm => exact .inr (.inr (.inl ⟨rfl, _, _, exec_lb rs rt imm⟩))
  | lbu rs rt imm => exact .inr (.inr (.inl ⟨rfl, _, _, exec_lbu rs rt imm⟩))
  | lh rs rt imm => exact .inr (.inr (.inl ⟨rfl, _, _, exec_lh rs rt imm⟩))
  | lhu rs rt imm => exact .inr (.inr (.inl ⟨rfl, _, _, exec_lhu rs rt imm⟩))
  | lw rs rt imm => exact .inr (.inr (.inl ⟨rfl, _, _, exec_lw rs rt imm⟩))
  | sb rs rt imm => exact .inr (.inr (.inr ⟨rfl, _, exec_sb rs rt imm⟩))
  | sh rs rt imm => exact .inr (.inr (.inr ⟨rfl, _, exec_sh rs rt imm⟩))
  | sw rs rt imm => exact .inr (.inr (.inr ⟨rfl, _, exec_sw rs rt imm⟩))

/-- Everything an instruction can do when it completes (R85): x[rs] was readable, the latch and the text are committed, the
parameters are kept, and beside that one register, the pc, or the bytes of one access change. -/
theorem exec_next {i : Instr} {s t : State} (h : exec i s = .next t) :
    ∃ a, readReg s i.rs = .ok a ∧
      ((i.handler.family = .alu ∧ ∃ v,
          t = commit i.handler (latchOf i.rs i.rt i.imm a) (writeReg s i.rt v)) ∨
       (i.handler.family = .branch ∧ ∃ p,
          t = commit i.handler (latchOf i.rs i.rt i.imm a) { s with pc := p } ∧
          (p = s.pc ∨ p = s.pc + branchDisp s.params.branchDispMode i.imm)) ∨
       (i.handler.family = .load ∧ ∃ v,
          t = commit i.handler (latchOf i.rs i.rt i.imm a) (writeReg s i.rt v)) ∨
       (i.handler.family = .store ∧ ∃ n bs,
          t = commit i.handler (latchOf i.rs i.rt i.imm a)
            { s with mem := s.mem.writeAll ((accessAddresses (effectiveAddress a i.imm) n).zip bs) })) := by
  rcases exec_shape i with ⟨hf, f, e⟩ | ⟨hf, c, e⟩ | ⟨hf, n, x, e⟩ | ⟨hf, n, e⟩
  · rcases aluStep_cases i.handler f i.rs i.rt i.imm s with ⟨a, ha, e'⟩ | ⟨_, _, e'⟩ <;> rw [e, e'] at h <;> cases h
    exact ⟨a, ha, .inl ⟨hf, _, rfl⟩⟩
  · rcases branchStep_cases i.handler c i.rs i.rt i.imm s with ⟨a, b, ha, _, e'⟩ | ⟨_, _, e'⟩ <;>
      rw [e, e'] at h <;> cases h
    refine ⟨a, ha, .inr (.inl ⟨hf, _, rfl, ?_⟩)⟩
    by_cases hc : c a b = true <;> simp [hc]
  · rcases loadStep_cases i.handler n x i.rs i.rt i.imm s with ⟨a, v, ha, _, e'⟩ | ⟨_, _, e'⟩ <;>
      rw [e, e'] at h <;> cases h
    exact ⟨a, ha, .inr (.inr (.inl ⟨hf, _, rfl⟩))⟩
  · rcases storeStep_cases i.handler n i.rs i.rt i.imm s with ⟨a, b, u, ha, _, hu, e'⟩ | ⟨_, _, e'⟩ <;>
      rw [e, e'] at h <;> cases h
    rcases memWrite_cases s (effectiveAddress a i.imm) n (b.setWidth n.bits) with ⟨_, _, hw⟩ | ⟨_, hw⟩ <;>
      rw [hw] at hu <;> cases hu
    exact ⟨a, ha, .inr (.inr (.inr ⟨hf, _, _, rfl⟩))⟩

/-- A decodable word runs as its instruction (R65, R85). -/
theorem runWord_decode {w : Word} {i : Instr} (s : State) (h : decode w = .ok i) : runWord w s = exec i s := by
  unfold runWord invoke
  rw [h]
  unfold decode at h
  split at h
  · cases h; simp [*]
  · cases h

/-- A word outside the eighteen opcodes is refused by the dispatcher (R66, R181). -/
theorem runWord_unknown {w : Word} {e : DecodeError} (s : State) (h : decode w = .error e) :
    runWord w s = .refused .notThisBlock := by
  unfold runWord invoke
  rw [h]
  split <;> rfl

/-- Everything a step can do when it completes (R27, R198): it ran the instruction at an aligned pc and moved the pc on. -/
theorem step_next {s t : State} (h : step s = .next t) :
    ∃ i u, s.pc.toNat % 4 = 0 ∧ exec i s = .next u ∧ t = { u with pc := u.pc + u.params.pcStep } := by
  unfold step fetchAndRun at h
  rcases fetch_cases s with ⟨w, hpc, _, hw⟩ | ⟨_, hw⟩
  · rw [hw] at h
    cases hd : decode w with
    | ok i =>
      simp only [runWord_decode s hd] at h
      cases hx : exec i s with
      | next u => rw [hx] at h; cases h; exact ⟨i, u, hpc, hx, rfl⟩
      | fault f => rw [hx] at h; cases h
      | refused r => rw [hx] at h; cases h
    | error e =>
      simp only [runWord_unknown s hd] at h
      cases h
  · rw [hw] at h; cases h

end Sys2Proof.Machine
end

