-- ==== Sys2Proof/Laws/PerInstr.lean ====
section
/-! SUPPORT. Statements for all instructions, one lemma for each constructor. -/

namespace Sys2Proof.Laws.OpcodeRow

/-- The `match` column of the instruction's row of spec/opcode_table.json. -/
def rowMatch : Instr → Word
  | .lui _ _ _ => 0x3C000000#32
  | .addi _ _ _ => 0x20000000#32
  | .addiu _ _ _ => 0x24000000#32
  | .slti _ _ _ => 0x28000000#32
  | .sltiu _ _ _ => 0x2C000000#32
  | .andi _ _ _ => 0x30000000#32
  | .ori _ _ _ => 0x34000000#32
  | .xori _ _ _ => 0x38000000#32
  | .beq _ _ _ => 0x10000000#32
  | .bne _ _ _ => 0x14000000#32
  | .lb _ _ _ => 0x80000000#32
  | .lbu _ _ _ => 0x90000000#32
  | .lh _ _ _ => 0x84000000#32
  | .lhu _ _ _ => 0x94000000#32
  | .lw _ _ _ => 0x8C000000#32
  | .sb _ _ _ => 0xA0000000#32
  | .sh _ _ _ => 0xA4000000#32
  | .sw _ _ _ => 0xAC000000#32

/-- The opcode field of an instruction's word is that of its row of spec/opcode_table.json. -/
def Statement (i : Instr) : Prop := fieldOpcode (encode i) = fieldOpcode (rowMatch i)

theorem lui (rs rt : RegIdx) (imm : Imm16) : Statement (.lui rs rt imm) :=
  (fieldOpcode_joinFields 0xf#6 rs rt imm).trans (show _ = fieldOpcode 0x3C000000#32 by decide)
theorem addi (rs rt : RegIdx) (imm : Imm16) : Statement (.addi rs rt imm) :=
  (fieldOpcode_joinFields 0x8#6 rs rt imm).trans (show _ = fieldOpcode 0x20000000#32 by decide)
theorem addiu (rs rt : RegIdx) (imm : Imm16) : Statement (.addiu rs rt imm) :=
  (fieldOpcode_joinFields 0x9#6 rs rt imm).trans (show _ = fieldOpcode 0x24000000#32 by decide)
theorem slti (rs rt : RegIdx) (imm : Imm16) : Statement (.slti rs rt imm) :=
  (fieldOpcode_joinFields 0xa#6 rs rt imm).trans (show _ = fieldOpcode 0x28000000#32 by decide)
theorem sltiu (rs rt : RegIdx) (imm : Imm16) : Statement (.sltiu rs rt imm) :=
  (fieldOpcode_joinFields 0xb#6 rs rt imm).trans (show _ = fieldOpcode 0x2C000000#32 by decide)
theorem andi (rs rt : RegIdx) (imm : Imm16) : Statement (.andi rs rt imm) :=
  (fieldOpcode_joinFields 0xc#6 rs rt imm).trans (show _ = fieldOpcode 0x30000000#32 by decide)
theorem ori (rs rt : RegIdx) (imm : Imm16) : Statement (.ori rs rt imm) :=
  (fieldOpcode_joinFields 0xd#6 rs rt imm).trans (show _ = fieldOpcode 0x34000000#32 by decide)
theorem xori (rs rt : RegIdx) (imm : Imm16) : Statement (.xori rs rt imm) :=
  (fieldOpcode_joinFields 0xe#6 rs rt imm).trans (show _ = fieldOpcode 0x38000000#32 by decide)
theorem beq (rs rt : RegIdx) (imm : Imm16) : Statement (.beq rs rt imm) :=
  (fieldOpcode_joinFields 0x4#6 rs rt imm).trans (show _ = fieldOpcode 0x10000000#32 by decide)
theorem bne (rs rt : RegIdx) (imm : Imm16) : Statement (.bne rs rt imm) :=
  (fieldOpcode_joinFields 0x5#6 rs rt imm).trans (show _ = fieldOpcode 0x14000000#32 by decide)
theorem lb (rs rt : RegIdx) (imm : Imm16) : Statement (.lb rs rt imm) :=
  (fieldOpcode_joinFields 0x20#6 rs rt imm).trans (show _ = fieldOpcode 0x80000000#32 by decide)
theorem lbu (rs rt : RegIdx) (imm : Imm16) : Statement (.lbu rs rt imm) :=
  (fieldOpcode_joinFields 0x24#6 rs rt imm).trans (show _ = fieldOpcode 0x90000000#32 by decide)
theorem lh (rs rt : RegIdx) (imm : Imm16) : Statement (.lh rs rt imm) :=
  (fieldOpcode_joinFields 0x21#6 rs rt imm).trans (show _ = fieldOpcode 0x84000000#32 by decide)
theorem lhu (rs rt : RegIdx) (imm : Imm16) : Statement (.lhu rs rt imm) :=
  (fieldOpcode_joinFields 0x25#6 rs rt imm).trans (show _ = fieldOpcode 0x94000000#32 by decide)
theorem lw (rs rt : RegIdx) (imm : Imm16) : Statement (.lw rs rt imm) :=
  (fieldOpcode_joinFields 0x23#6 rs rt imm).trans (show _ = fieldOpcode 0x8C000000#32 by decide)
theorem sb (rs rt : RegIdx) (imm : Imm16) : Statement (.sb rs rt imm) :=
  (fieldOpcode_joinFields 0x28#6 rs rt imm).trans (show _ = fieldOpcode 0xA0000000#32 by decide)
theorem sh (rs rt : RegIdx) (imm : Imm16) : Statement (.sh rs rt imm) :=
  (fieldOpcode_joinFields 0x29#6 rs rt imm).trans (show _ = fieldOpcode 0xA4000000#32 by decide)
theorem sw (rs rt : RegIdx) (imm : Imm16) : Statement (.sw rs rt imm) :=
  (fieldOpcode_joinFields 0x2b#6 rs rt imm).trans (show _ = fieldOpcode 0xAC000000#32 by decide)

end Sys2Proof.Laws.OpcodeRow
end

