-- ==== Sys2Proof/Laws/Run.lean ====
section
/-! SUPPORT. What a run can do in one turn of its loop (70_reset_and_hazards.md R198), so that no proof unfolds it. -/

namespace Sys2Proof.Machine

theorem runFrom_atEnd {endPc : Word} {s : State} (taken bound : Nat) (h : s.pc = endPc) :
    runFrom endPc taken bound s = .endedWell s := by
  cases bound <;> simp [runFrom, h]

theorem runFrom_next {endPc : Word} {s t : State} (taken bound : Nat) (h : s.pc ≠ endPc) (hs : step s = .next t) :
    runFrom endPc taken (bound + 1) s = runFrom endPc (taken + 1) bound t := by
  simp [runFrom, h, hs]

theorem runFrom_fault {endPc : Word} {s : State} {f : Fault} (taken bound : Nat) (h : s.pc ≠ endPc)
    (hs : step s = .fault f) : runFrom endPc taken (bound + 1) s = .faulted (faultedState taken s f) f := by
  simp [runFrom, h, hs]

theorem runFrom_refused {endPc : Word} {s : State} {r : Refusal} (taken bound : Nat) (h : s.pc ≠ endPc)
    (hs : step s = .refused r) : runFrom endPc taken (bound + 1) s = .refused s r := by
  simp [runFrom, h, hs]

/-- A good end does not depend on the count of steps taken before, which only the text after a fault reads. -/
theorem runFrom_endedWell_taken {endPc : Word} {bound : Nat} {s u : State} {taken : Nat} (taken' : Nat)
    (h : runFrom endPc taken bound s = .endedWell u) : runFrom endPc taken' bound s = .endedWell u := by
  induction bound generalizing s taken taken' with
  | zero =>
    by_cases hpc : s.pc = endPc
    · rw [runFrom_atEnd _ _ hpc] at h ⊢; exact h
    · simp [runFrom, hpc] at h
  | succ bound ih =>
    by_cases hpc : s.pc = endPc
    · rw [runFrom_atEnd _ _ hpc] at h ⊢; exact h
    · cases hs : step s with
      | next t => rw [runFrom_next _ _ hpc hs] at h ⊢; exact ih _ h
      | fault f => rw [runFrom_fault _ _ hpc hs] at h; cases h
      | refused r => rw [runFrom_refused _ _ hpc hs] at h; cases h

end Sys2Proof.Machine
end

