-- ==== Sys2Proof/Tests/Slice0.lean ====
section
/-! SUPPORT. The model's own tests. Every expected value is from 95_test_vectors.md or from the words of the rule named;
the witnesses show for each statement a state and operands that meet its hypotheses together. -/

namespace Sys2Proof.Tests

open Sys2Proof Sys2Proof.Machine

/-! ### Helpers -/

/-- Whether an outcome is a next state that passes a check. -/
def nextWith (o : Host.Outcome State Fault Refusal) (check : State → Bool) : Bool :=
  match o with
  | .next t => check t
  | .fault _ => false
  | .refused _ => false

/-- Whether an outcome is the given fault. -/
def faultsWith (o : Host.Outcome State Fault Refusal) (f : Fault) : Bool :=
  match o with
  | .next _ => false
  | .fault g => decide (g = f)
  | .refused _ => false

/-- Whether an outcome is the given refusal. -/
def refusesWith (o : Host.Outcome State Fault Refusal) (r : Refusal) : Bool :=
  match o with
  | .next _ => false
  | .fault _ => false
  | .refused q => decide (q = r)

/-- Whether an outcome is a next state. -/
def completes (o : Host.Outcome State Fault Refusal) : Bool := nextWith o (fun _ => true)

theorem next_of_completes {o : Host.Outcome State Fault Refusal} (h : completes o = true) : ∃ t, o = .next t := by
  cases o with
  | next t => exact ⟨t, rfl⟩
  | fault f => cases h
  | refused r => cases h

theorem fault_of_faultsWith {o : Host.Outcome State Fault Refusal} {f : Fault} (h : faultsWith o f = true) :
    o = .fault f := by
  cases o with
  | next t => cases h
  | fault g => simpa [faultsWith] using h
  | refused r => cases h

/-- A state with x[8] = a and x[9] = b, every other register but x[0] without a value, given memory, pc = 0x00400010. -/
def small (a b : Word) (m : Memory) : State :=
  State.launch defaultParams
    (fun i => if i = 8#5 then some a else if i = 9#5 then some b else none) m 0x00400010#32

/-- `small` in the other byte order. -/
def smallBig (a b : Word) (m : Memory) : State :=
  { small a b m with params := { defaultParams with endian := .big } }

/-- The ALU result: x[9] after `i` runs with x[8] = a. -/
def gives (i : Instr) (a r : Word) : Bool :=
  nextWith (exec i (small a 0x55555555#32 [])) (fun t =>
    decide (readReg t 9#5 = .ok r) && decide (t.pc = 0x00400010#32) && decide (t.mem = []))

/-- Four bytes at 0x1000. -/
def cells : Memory := [(0x1000, 0x80#8), (0x1001, 0x55#8), (0x1002, 0xEF#8), (0x1003, 0xBE#8)]

/-! ### Well-formedness: a word of each kind outside the eighteen opcodes is refused (30_encoding.md R66) -/

theorem test_illFormed_rType : Word.wellFormed 0x00000000#32 = false := by decide
theorem test_illFormed_jType : Word.wellFormed 0x0C000000#32 = false := by decide
theorem test_illFormed_between : Word.wellFormed 0x88000000#32 = false := by decide
theorem test_illFormed_top : Word.wellFormed 0xFFFFFFFF#32 = false := by decide
theorem test_wellFormed_last : Word.wellFormed 0xAFFFFFFF#32 = true := by decide
theorem test_wellFormed_instr : Instr.wellFormed (.lui 31 31 0xFFFF) = true := by decide

/-! ### Decoding: each word written out from the pattern of R61, the opcode of R65 and the fields of 95_test_vectors.md 2.5
(rs = 8, for lui 0, rt = 9, imm16 = 0x8001) -/

theorem test_decode_lui : decode 0b001111_00000_01001_1000000000000001#32 = .ok (.lui 0 9 0x8001) := by decide
theorem test_decode_addi : decode 0b001000_01000_01001_1000000000000001#32 = .ok (.addi 8 9 0x8001) := by decide
theorem test_decode_addiu : decode 0b001001_01000_01001_1000000000000001#32 = .ok (.addiu 8 9 0x8001) := by decide
theorem test_decode_slti : decode 0b001010_01000_01001_1000000000000001#32 = .ok (.slti 8 9 0x8001) := by decide
theorem test_decode_sltiu : decode 0b001011_01000_01001_1000000000000001#32 = .ok (.sltiu 8 9 0x8001) := by decide
theorem test_decode_andi : decode 0b001100_01000_01001_1000000000000001#32 = .ok (.andi 8 9 0x8001) := by decide
theorem test_decode_ori : decode 0b001101_01000_01001_1000000000000001#32 = .ok (.ori 8 9 0x8001) := by decide
theorem test_decode_xori : decode 0b001110_01000_01001_1000000000000001#32 = .ok (.xori 8 9 0x8001) := by decide
theorem test_decode_beq : decode 0b000100_01000_01001_1000000000000001#32 = .ok (.beq 8 9 0x8001) := by decide
theorem test_decode_bne : decode 0b000101_01000_01001_1000000000000001#32 = .ok (.bne 8 9 0x8001) := by decide
theorem test_decode_lb : decode 0b100000_01000_01001_1000000000000001#32 = .ok (.lb 8 9 0x8001) := by decide
theorem test_decode_lbu : decode 0b100100_01000_01001_1000000000000001#32 = .ok (.lbu 8 9 0x8001) := by decide
theorem test_decode_lh : decode 0b100001_01000_01001_1000000000000001#32 = .ok (.lh 8 9 0x8001) := by decide
theorem test_decode_lhu : decode 0b100101_01000_01001_1000000000000001#32 = .ok (.lhu 8 9 0x8001) := by decide
theorem test_decode_lw : decode 0b100011_01000_01001_1000000000000001#32 = .ok (.lw 8 9 0x8001) := by decide
theorem test_decode_sb : decode 0b101000_01000_01001_1000000000000001#32 = .ok (.sb 8 9 0x8001) := by decide
theorem test_decode_sh : decode 0b101001_01000_01001_1000000000000001#32 = .ok (.sh 8 9 0x8001) := by decide
theorem test_decode_sw : decode 0b101011_01000_01001_1000000000000001#32 = .ok (.sw 8 9 0x8001) := by decide

theorem test_decode_rejects : decode 0x00000000#32 = .error .notThisBlock := by decide
theorem test_decodeBytes_little :
    decodeBytes .little [0x34#8, 0x12#8, 0x08#8, 0x3C#8, 0xAA#8] = .ok (.lui 0 8 0x1234, [0xAA#8]) := by decide
theorem test_decodeBytes_truncated : decodeBytes .little [0x34#8, 0x12#8, 0x08#8] = .error .truncated := by decide
theorem test_decodeTableWord : decodeTableWord 32 0xAD090004 = some (.sw 8 9 0x0004) := by decide

/-! ### ALU-immediate (95_test_vectors.md 2.2) -/

theorem test_lui_1 : gives (.lui 8 9 0x1234) 0x00000000#32 0x12340000#32 = true := by decide
theorem test_lui_2 : gives (.lui 8 9 0xFFFF) 0xDEADBEEF#32 0xFFFF0000#32 = true := by decide
theorem test_addi_1 : gives (.addi 8 9 0x0001) 0x7FFFFFFF#32 0x80000000#32 = true := by decide
theorem test_addi_2 : gives (.addi 8 9 0x8000) 0x00000000#32 0xFFFF8000#32 = true := by decide
theorem test_addiu_1 : gives (.addiu 8 9 0x0001) 0xFFFFFFFF#32 0x00000000#32 = true := by decide
theorem test_addiu_2 : gives (.addiu 8 9 0x8000) 0x12345678#32 0x1233D678#32 = true := by decide
theorem test_slti_1 : gives (.slti 8 9 0x0001) 0xFFFFFFFF#32 0x00000001#32 = true := by decide
theorem test_slti_2 : gives (.slti 8 9 0x8000) 0xFFFF8000#32 0x00000000#32 = true := by decide
theorem test_sltiu_1 : gives (.sltiu 8 9 0x0001) 0xFFFFFFFF#32 0x00000000#32 = true := by decide
theorem test_sltiu_2 : gives (.sltiu 8 9 0x8000) 0x00007FFF#32 0x00000001#32 = true := by decide
theorem test_andi_1 : gives (.andi 8 9 0x8000) 0xFFFFFFFF#32 0x00008000#32 = true := by decide
theorem test_andi_2 : gives (.andi 8 9 0xFFFF) 0x12345678#32 0x00005678#32 = true := by decide
theorem test_ori_1 : gives (.ori 8 9 0x8000) 0xFFFF0000#32 0xFFFF8000#32 = true := by decide
theorem test_ori_2 : gives (.ori 8 9 0x5678) 0x12340000#32 0x12345678#32 = true := by decide
theorem test_xori_1 : gives (.xori 8 9 0xFFFF) 0xFFFFFFFF#32 0xFFFF0000#32 = true := by decide
theorem test_xori_2 : gives (.xori 8 9 0x8000) 0x00000000#32 0x00008000#32 = true := by decide

theorem test_same_register : nextWith (exec (.addiu 8 8 0x0001) (small 5#32 0#32 []))
    (fun t => decide (readReg t 8#5 = .ok 6#32)) = true := by decide
theorem test_write_of_zero : nextWith (exec (.addiu 8 0 0x0001) (small 5#32 0#32 []))
    (fun t => decide (readReg t 0#5 = .ok 0#32)) = true := by decide

/-! ### Branches (95_test_vectors.md 2.3) -/

theorem test_disp_sext : branchDisp .sext 0x8000 = 0xFFFE0000#32 := by decide
theorem test_disp_raw : branchDisp .raw 0xFFFD = 0x0003FFF4#32 := by decide
theorem test_beq_taken : nextWith (exec (.beq 8 9 0xFFFD) (small 5#32 5#32 []))
    (fun t => decide (t.pc = 0x00400004#32)) = true := by decide
theorem test_beq_not_taken : nextWith (exec (.beq 8 9 0x0004) (small 0x80000000#32 0#32 []))
    (fun t => decide (t.pc = 0x00400010#32)) = true := by decide
theorem test_bne_taken : nextWith (exec (.bne 8 9 0x0004) (small 5#32 6#32 []))
    (fun t => decide (t.pc = 0x00400020#32)) = true := by decide
theorem test_bne_not_taken : nextWith (exec (.bne 8 8 0x0004) (small 5#32 6#32 []))
    (fun t => decide (t.pc = 0x00400010#32)) = true := by decide

/-! ### Memory (95_test_vectors.md 2.4; the bytes of lh and lhu are those of R124 and R125) -/

theorem test_ea_wrap_up : effectiveAddress 0xFFFFFFFC#32 0x0008 = 0x00000004#32 := by decide
theorem test_ea_wrap_down : effectiveAddress 0x00000002#32 0xFFFC = 0xFFFFFFFE#32 := by decide
theorem test_lb_negative : nextWith (exec (.lb 8 9 0x0000) (small 0x1000#32 0#32 cells))
    (fun t => decide (readReg t 9#5 = .ok 0xFFFFFF80#32)) = true := by decide
theorem test_lbu_odd : nextWith (exec (.lbu 8 9 0x0001) (small 0x1000#32 0#32 cells))
    (fun t => decide (readReg t 9#5 = .ok 0x00000055#32)) = true := by decide
theorem test_lh_little : nextWith (exec (.lh 8 9 0x0002) (small 0x1000#32 0#32 cells))
    (fun t => decide (readReg t 9#5 = .ok 0xFFFFBEEF#32)) = true := by decide
theorem test_lh_big : nextWith (exec (.lh 8 9 0x0002) (smallBig 0x1000#32 0#32 cells))
    (fun t => decide (readReg t 9#5 = .ok 0xFFFFEFBE#32)) = true := by decide
theorem test_lhu_little : nextWith (exec (.lhu 8 9 0x0002) (small 0x1000#32 0#32 cells))
    (fun t => decide (readReg t 9#5 = .ok 0x0000BEEF#32)) = true := by decide
theorem test_lw_little : nextWith (exec (.lw 8 9 0x0000) (small 0x1000#32 0#32 cells))
    (fun t => decide (readReg t 9#5 = .ok 0xBEEF5580#32)) = true := by decide
theorem test_lw_big : nextWith (exec (.lw 8 9 0x0000) (smallBig 0x1000#32 0#32 cells))
    (fun t => decide (readReg t 9#5 = .ok 0x8055EFBE#32)) = true := by decide
theorem test_lw_base_is_destination : nextWith (exec (.lw 8 8 0x0000) (small 0x1000#32 0#32 cells))
    (fun t => decide (readReg t 8#5 = .ok 0xBEEF5580#32)) = true := by decide
theorem test_sb : nextWith (exec (.sb 8 9 0x0000) (small 0x2000#32 0x12345678#32 []))
    (fun t => decide (t.mem = [(0x2000, 0x78#8)])) = true := by decide
theorem test_sh_negative_offset : nextWith (exec (.sh 8 9 0xFFFE) (small 0x1000#32 0xDEADBEEF#32 []))
    (fun t => decide (t.mem = [(0xFFE, 0xEF#8), (0xFFF, 0xBE#8)])) = true := by decide
theorem test_sw_little : nextWith (exec (.sw 8 9 0x0000) (small 0x2000#32 0x12345678#32 []))
    (fun t => decide (t.mem = [(0x2000, 0x78#8), (0x2001, 0x56#8), (0x2002, 0x34#8), (0x2003, 0x12#8)])) = true := by
  decide
theorem test_sw_big : nextWith (exec (.sw 8 9 0x0000) (smallBig 0x2000#32 0x12345678#32 []))
    (fun t => decide (t.mem = [(0x2000, 0x12#8), (0x2001, 0x34#8), (0x2002, 0x56#8), (0x2003, 0x78#8)])) = true := by
  decide

/-! ### Faults (95_test_vectors.md 2.4) and refusals (2.6) -/

theorem test_lh_misaligned : faultsWith (exec (.lh 8 9 0x0001) (small 0x1000#32 0#32 cells))
    (.memFault 0x1001#32 .half .alignment) = true := by decide
theorem test_sw_misaligned : faultsWith (exec (.sw 8 9 0x0006) (small 0x1000#32 1#32 cells))
    (.memFault 0x1006#32 .word .alignment) = true := by decide
theorem test_lb_no_value : faultsWith (exec (.lb 8 9 0x0000) (small 0x1000#32 0#32 []))
    (.memFault 0x1000#32 .byte .access) = true := by decide
theorem test_lw_base_no_value : faultsWith (exec (.lw 10 9 0x0000) (small 0x1000#32 0#32 cells))
    (.regFault 10#5) = true := by decide
theorem test_sw_data_no_value : faultsWith (exec (.sw 8 11 0x0001) (small 0x1000#32 0#32 cells))
    (.regFault 11#5) = true := by decide
theorem test_refuses_word : refusesWith (runWord 0x00000000#32 (small 0#32 0#32 [])) .notThisBlock = true := by decide
theorem test_refuses_handler : refusesWith (invoke .addi 0x25098001#32 (small 0#32 0#32 [])) .wrongHandler = true := by
  decide
theorem test_accepts_handler : completes (invoke .addiu 0x25098001#32 (small 0#32 0#32 [])) = true := by decide

/-! ### Text (95_test_vectors.md 2.5 and 44_disassembly.md R155 to R157) -/

/-- The text after the word runs with every register `a` and memory `cells` from 0x1000 on. -/
def textOf (w : Word) (a : Word) (m : Memory) : Option String :=
  match decode w with
  | .ok i =>
    match exec i { State.launch defaultParams (fun _ => some a) m 0#32 with pc := 0#32 } with
    | .next t => t.asmText
    | .fault _ => none
    | .refused _ => none
  | .error _ => none

theorem test_text_alu : textOf 0x2509FFFF#32 0#32 [] = some "addiu $t1, $t0, 0xffff" := by decide
theorem test_text_lui : textOf 0x3C081234#32 0#32 [] = some "lui $t0, $zero, 0x1234" := by decide
theorem test_text_branch : textOf 0x1500FFFD#32 0#32 [] = some "bne $zero, $t0, 0xfffd" := by decide
theorem test_text_memory : textOf 0x8FA8FFFC#32 0x1004#32 cells = some "lw $t0, 0xfffc($sp)" := by decide
theorem test_text_zero_padded : hex4 defaultAsmStyle 0x00FF#16 = "0x00ff" := by decide

/-! ### The step and reset -/

theorem test_reset_runs_a_word : nextWith (step (State.reset.withFetchWord 32 0x3C081234))
    (fun t => decide (readReg t 8#5 = .ok 0x12340000#32) && decide (t.pc = 4#32)) = true := by decide
theorem test_reset_fetch_faults : faultsWith (step State.reset) (.fetchFault 0#32 .access) = true := by decide
theorem test_system_branch : nextWith (step ((small 5#32 5#32 []).withFetchWord 32 0x1109FFFD))
    (fun t => decide (t.pc = 0x00400008#32)) = true := by decide
theorem test_reset_memory_canonical : State.reset.mem.wf = true := by decide

/-! ### Witnesses: for each statement, its hypotheses are met together

`atBoundary` holds a word at the top of the address space; `branchAt` has a word at its pc. -/

/-- x[8] = 0xFFFFFFFC and the four bytes there hold values. -/
def atBoundary : State :=
  small 0xFFFFFFFC#32 0x12345678#32
    [(0xFFFFFFFC, 1#8), (0xFFFFFFFD, 2#8), (0xFFFFFFFE, 3#8), (0xFFFFFFFF, 0xFF#8)]

/-- x[8] = x[9] = 5 and a given word at the pc. -/
def branchAt (w : Nat) : State := (small 5#32 5#32 []).withFetchWord 32 w

/-- The fetched word of a state is a given one. -/
def fetches (s : State) (w : Word) : Bool := decide (fetch s = .ok w)

theorem witness_EncodeOfDecodeIsIdentity : decode 0x3C081234#32 = .ok (.lui 0 8 0x1234) := by decide
theorem witness_DecodedFieldsAreTheWordsBits : decode 0xAFFFFFFF#32 = .ok (.sw 31 31 0xFFFF) := by decide
theorem witness_WrongInvocationsAreRefused_unknown : Word.wellFormed 0x18000000#32 = false := by decide
theorem witness_WrongInvocationsAreRefused_fetched : fetches (branchAt 0x18000000) 0x18000000#32 = true ∧
    Word.wellFormed 0x18000000#32 = false ∧ (branchAt 0x18000000).pc ≠ 0#32 := by decide
theorem witness_WrongInvocationsAreRefused_known :
    Word.wellFormed 0x25098001#32 = true ∧ decode 0x25098001#32 = .ok (.addiu 8 9 0x8001) ∧
      Handler.addi ≠ (Instr.addiu 8 9 0x8001).handler := by decide
theorem witness_RegisterReadFaultsExactlyWithoutValue :
    readReg (small 0#32 0#32 []) 31#5 = .error (.regFault 31#5) := by decide
theorem witness_LuiResult : readReg (small 0#32 0#32 []) 0#5 = .ok 0#32 := by decide
theorem witness_AddiResult : readReg (small 0x7FFFFFFF#32 0#32 []) 8#5 = .ok 0x7FFFFFFF#32 := by decide
theorem witness_AddiuResult : readReg (small 0xFFFFFFFF#32 0#32 []) 8#5 = .ok 0xFFFFFFFF#32 := by decide
theorem witness_SltiResult : readReg (small 0x80000000#32 0#32 []) 8#5 = .ok 0x80000000#32 := by decide
theorem witness_SltiuResult : readReg (small 0x7FFF#32 0#32 []) 8#5 = .ok 0x7FFF#32 := by decide
theorem witness_AndiResult : readReg State.reset 31#5 = .ok 0#32 := by decide
theorem witness_OriResult : readReg State.reset 1#5 = .ok 0#32 := by decide
theorem witness_XoriResult : readReg (small 1#32 2#32 []) 9#5 = .ok 2#32 := by decide
theorem witness_AluImmediateCommonBehaviour_completes :
    Handler.lui.family = .alu ∧ readReg (small 1#32 2#32 []) 8#5 = .ok 1#32 := by decide
theorem witness_AluImmediateCommonBehaviour_faults :
    exec (Handler.xori.build 10#5 9#5 0#16) (small 1#32 2#32 []) = .fault (.regFault 10#5) :=
  fault_of_faultsWith (by decide)
theorem witness_BeqResult :
    readReg (small 5#32 5#32 []) 8#5 = .ok 5#32 ∧ readReg (small 5#32 5#32 []) 9#5 = .ok 5#32 := by decide
theorem witness_BneResult :
    readReg (small 5#32 6#32 []) 8#5 = .ok 5#32 ∧ readReg (small 5#32 6#32 []) 9#5 = .ok 6#32 := by decide
theorem witness_OnlyTakenBranchesMoveThePc_other : ∃ t, exec (.lui 0 9 1) (small 0#32 0#32 []) = .next t :=
  next_of_completes (by decide)
theorem witness_OnlyTakenBranchesMoveThePc_beq : (∃ t, exec (.beq 8 9 1) (small 5#32 5#32 []) = .next t) ∧
    readReg (small 5#32 5#32 []) 8#5 = .ok 5#32 ∧ readReg (small 5#32 5#32 []) 9#5 = .ok 5#32 :=
  ⟨next_of_completes (by decide), by decide, by decide⟩
theorem witness_OnlyTakenBranchesMoveThePc_bne : (∃ t, exec (.bne 8 9 1) (small 5#32 6#32 []) = .next t) ∧
    readReg (small 5#32 6#32 []) 8#5 = .ok 5#32 ∧ readReg (small 5#32 6#32 []) 9#5 = .ok 6#32 :=
  ⟨next_of_completes (by decide), by decide, by decide⟩
theorem witness_NextFetchAfterBranch_beq : fetches (branchAt 0x1109FFFD) 0x1109FFFD#32 = true ∧
    decode 0x1109FFFD#32 = .ok (.beq 8 9 0xFFFD) ∧ readReg (branchAt 0x1109FFFD) 8#5 = .ok 5#32 ∧
    readReg (branchAt 0x1109FFFD) 9#5 = .ok 5#32 ∧ (branchAt 0x1109FFFD).params.pcStep = 4#32 := by decide
theorem witness_NextFetchAfterBranch_bne : fetches (branchAt 0x15098000) 0x15098000#32 = true ∧
    decode 0x15098000#32 = .ok (.bne 8 9 0x8000) ∧ readReg (branchAt 0x15098000) 8#5 = .ok 5#32 ∧
    readReg (branchAt 0x15098000) 9#5 = .ok 5#32 ∧ (branchAt 0x15098000).params.pcStep = 4#32 := by decide
theorem witness_MemReadComposesBytes_byte : admission atBoundary.params.memAdmit 0xFFFFFFFF#32 .byte = none ∧
    atBoundary.mem.read (0xFFFFFFFF#32).toNat = some 0xFF#8 := by decide
theorem witness_MemReadComposesBytes_half : admission atBoundary.params.memAdmit 0xFFFFFFFE#32 .half = none ∧
    atBoundary.mem.read (0xFFFFFFFE#32).toNat = some 3#8 ∧
    atBoundary.mem.read (0xFFFFFFFE#32 + 1#32).toNat = some 0xFF#8 := by decide
theorem witness_MemReadComposesBytes_word : admission atBoundary.params.memAdmit 0xFFFFFFFC#32 .word = none ∧
    atBoundary.mem.read (0xFFFFFFFC#32).toNat = some 1#8 ∧
    atBoundary.mem.read (0xFFFFFFFC#32 + 1#32).toNat = some 2#8 ∧
    atBoundary.mem.read (0xFFFFFFFC#32 + 2#32).toNat = some 3#8 ∧
    atBoundary.mem.read (0xFFFFFFFC#32 + 3#32).toNat = some 0xFF#8 := by decide
theorem witness_MemReadComposesBytes_none : admission atBoundary.params.memAdmit 0#32 .word = none ∧
    atBoundary.mem.read (byteAddress 0#32 3) = none := by decide
theorem witness_MemReadComposesBytes_refused : admission atBoundary.params.memAdmit 0xFFFFFFFE#32 .word = some .alignment ∧
    admission atBoundary.params.memAdmit 0xFFFFFFFF#32 .half = some .alignment := by decide
theorem witness_MemReadAfterMemWrite : (memWrite atBoundary 0xFFFFFFFC#32 .word 0xDEADBEEF#32).isOk = true := by decide

/-- The hypotheses of the result of a load: x[8] readable, the access admitted, and its bytes holding values. -/
def loadable (s : State) (imm : Imm16) (n : Width) : Bool :=
  match readReg s 8#5 with
  | .ok a => decide (admission s.params.memAdmit (effectiveAddress a imm) n = none) &&
      (List.range n.bytes).all (fun k => (s.mem.read (byteAddress (effectiveAddress a imm) k)).isSome)
  | .error _ => false

/-- The hypotheses of the result of a store: x[8] and x[9] readable and the access admitted. -/
def storable (s : State) (imm : Imm16) (n : Width) : Bool :=
  match readReg s 8#5, readReg s 9#5 with
  | .ok a, .ok _ => decide (admission s.params.memAdmit (effectiveAddress a imm) n = none)
  | _, _ => false

theorem witness_LbResult : loadable atBoundary 3#16 .byte = true := by decide
theorem witness_LbuResult : loadable atBoundary 0#16 .byte = true := by decide
theorem witness_LhResult_little : loadable atBoundary 2#16 .half = true := by decide
theorem witness_LhResult_big : loadable (smallBig 0x1000#32 0#32 cells) 2#16 .half = true := by decide
theorem witness_LhuResult_little : loadable atBoundary 0#16 .half = true := by decide
theorem witness_LhuResult_big : loadable (smallBig 0x1000#32 0#32 cells) 0#16 .half = true := by decide
theorem witness_LwResult_little : loadable atBoundary 0#16 .word = true := by decide
theorem witness_LwResult_big : loadable (smallBig 0x1000#32 0#32 cells) 0#16 .word = true := by decide
theorem witness_SbResult : storable atBoundary 3#16 .byte = true := by decide
theorem witness_ShResult_little : storable atBoundary 2#16 .half = true := by decide
theorem witness_ShResult_big : storable (smallBig 0x1000#32 0#32 cells) 0xFFFE#16 .half = true := by decide
theorem witness_SwResult_little : storable atBoundary 0#16 .word = true := by decide
theorem witness_SwResult_big : storable (smallBig 0x1000#32 0#32 cells) 0x8000#16 .word = true := by decide
theorem witness_LoadCommonBehaviour_value : readReg (small 0x1000#32 0#32 cells) 8#5 = .ok 0x1000#32 ∧
    memRead (small 0x1000#32 0#32 cells) (0x1000#32 + (0#16).signExtend 32) .byte = .ok 0x80#8 ∧
    memRead (small 0x1000#32 0#32 cells) (0x1000#32 + (0#16).signExtend 32) .half = .ok 0x5580#16 ∧
    memRead (small 0x1000#32 0#32 cells) (0x1000#32 + (0#16).signExtend 32) .word = .ok 0xBEEF5580#32 := by decide
theorem witness_LoadCommonBehaviour_fault :
    memRead (small 0x1000#32 0#32 cells) (0x1000#32 + (4#16).signExtend 32) .byte =
      .error (.memFault 0x1004#32 .byte .access) ∧
    memRead (small 0x1000#32 0#32 cells) (0x1000#32 + (1#16).signExtend 32) .half =
      .error (.memFault 0x1001#32 .half .alignment) ∧
    memRead (small 0x1000#32 0#32 cells) (0x1000#32 + (2#16).signExtend 32) .word =
      .error (.memFault 0x1002#32 .word .alignment) := by decide
theorem witness_StoreCommonBehaviour_done :
    (memWrite atBoundary (0xFFFFFFFC#32 + (3#16).signExtend 32) .byte 0x78#8).isOk = true ∧
    (memWrite atBoundary (0xFFFFFFFC#32 + (2#16).signExtend 32) .half 0x5678#16).isOk = true ∧
    (memWrite atBoundary (0xFFFFFFFC#32 + (0#16).signExtend 32) .word 0x12345678#32).isOk = true := by decide
theorem witness_StoreCommonBehaviour_fault :
    (memWrite atBoundary (0xFFFFFFFC#32 + (3#16).signExtend 32) .half 0x5678#16).isOk = false ∧
    (memWrite atBoundary (0xFFFFFFFC#32 + (2#16).signExtend 32) .word 0x12345678#32).isOk = false := by decide
theorem witness_StoreThenLoadReturnsTheValue_word : storable atBoundary 0#16 .word = true := by decide
theorem witness_StoreThenLoadReturnsTheValue_half : storable atBoundary 2#16 .half = true := by decide
theorem witness_StoreThenLoadReturnsTheValue_byte : storable atBoundary 3#16 .byte = true := by decide
theorem witness_LaterFetchSeesAStore : storable atBoundary 0#16 .word = true ∧
    (effectiveAddress 0xFFFFFFFC#32 0#16).toNat % 4 = 0 := by decide
theorem witness_RsFaultComesFirst : (Instr.lui 31 9 0).rs ≠ 0#5 ∧
    (small 0#32 0#32 []).regs[31] = none := by decide
theorem witness_RtFaultComesSecond : readReg (small 1#32 0#32 []) 8#5 = .ok 1#32 ∧ (10#5 : RegIdx) ≠ 0#5 ∧
    (small 1#32 0#32 []).regs[10] = none ∧ (Instr.beq 8 10 0).handler.family = .branch ∧
    (Instr.sw 8 10 0).handler.family = .store ∧ (Instr.lui 8 10 0).handler.family = .alu ∧
    (Instr.lb 8 10 0).handler.family = .load := by decide
theorem witness_MisalignedAndUnvaluedAccessesFault_half : (small 0x1000#32 1#32 cells).params.memAdmit = .aligned ∧
    readReg (small 0x1000#32 1#32 cells) 8#5 = .ok 0x1000#32 ∧ readReg (small 0x1000#32 1#32 cells) 9#5 = .ok 1#32 ∧
    (effectiveAddress 0x1000#32 1#16).toNat % 2 ≠ 0 := by decide
theorem witness_MisalignedAndUnvaluedAccessesFault_word :
    readReg (small 0x1000#32 1#32 cells) 8#5 = .ok 0x1000#32 ∧ readReg (small 0x1000#32 1#32 cells) 9#5 = .ok 1#32 ∧
    (effectiveAddress 0x1000#32 2#16).toNat % 4 ≠ 0 := by decide
theorem witness_MisalignedAndUnvaluedAccessesFault_noByte :
    cells.read (byteAddress (effectiveAddress 0x1000#32 4#16) 0) = none := by decide
theorem witness_MisalignedAndUnvaluedAccessesFault_noHalf : (effectiveAddress 0xFFE#32 0#16).toNat % 2 = 0 ∧
    Memory.read [(0xFFE, 1#8)] (byteAddress (effectiveAddress 0xFFE#32 0#16) 1) = none := by decide
theorem witness_MisalignedAndUnvaluedAccessesFault_noWord : (effectiveAddress 0x1000#32 4#16).toNat % 4 = 0 ∧
    cells.read (byteAddress (effectiveAddress 0x1000#32 4#16) 3) = none := by decide
theorem witness_OnlyTheSpecsFaultsAndNoRefusal :
    exec (.lw 8 9 2) (small 0x1000#32 0#32 cells) = .fault (.memFault 0x1002#32 .word .alignment) :=
  fault_of_faultsWith (by decide)
theorem witness_FaultsCommitNothingAndPropagate :
    fetches ((small 0x1000#32 0#32 []).withFetchWord 32 0x8D090002) 0x8D090002#32 = true ∧
    runWord 0x8D090002#32 ((small 0x1000#32 0#32 []).withFetchWord 32 0x8D090002) =
      .fault (.memFault 0x1002#32 .word .alignment) ∧
    ((small 0x1000#32 0#32 []).withFetchWord 32 0x8D090002).pc ≠ 0#32 :=
  ⟨by decide, fault_of_faultsWith (by decide), by decide⟩
theorem witness_TextForms_alu : (∃ t, exec (.ori 8 9 1) (small 0#32 0#32 []) = .next t) ∧
    (small 0#32 0#32 []).params.asmStyle = defaultAsmStyle := ⟨next_of_completes (by decide), by decide⟩
theorem witness_TextForms_memory : (∃ t, exec (.lb 8 9 0) (small 0x1000#32 0#32 cells) = .next t) ∧
    (small 0x1000#32 0#32 cells).params.asmStyle = defaultAsmStyle := ⟨next_of_completes (by decide), by decide⟩
theorem witness_EveryStepRendersFromItsFields : ∃ t, exec (.bne 8 9 0xFFFF) (small 0#32 0#32 []) = .next t :=
  next_of_completes (by decide)
theorem witness_FirstTokenIsTheMnemonic : (∃ t, exec (.sb 8 9 0) (small 0#32 0#32 []) = .next t) ∧
    (small 0#32 0#32 []).params.asmStyle.gap = " " := ⟨next_of_completes (by decide), by decide⟩
theorem witness_TextNeverAffectsExecution :
    AgreeOnExecution atBoundary { atBoundary with asmText := some "lui", ops := some (latchOf 1 2 3 4) } :=
  ⟨rfl, rfl, rfl, rfl, rfl, rfl, rfl⟩
theorem witness_LatchHoldsTheDecodedOperands_value : decode 0x2509FFFF#32 = .ok (.addiu 8 9 0xFFFF) ∧
    readReg (small 0x12345678#32 0#32 []) ((0x2509FFFF#32 : Word).extractLsb' 21 5) = .ok 0x12345678#32 ∧
    ∃ t, exec (.addiu 8 9 0xFFFF) (small 0x12345678#32 0#32 []) = .next t :=
  ⟨by decide, by decide, next_of_completes (by decide)⟩
theorem witness_LatchHoldsTheDecodedOperands_fault : decode 0x8FA8FFFC#32 = .ok (.lw 29 8 0xFFFC) ∧
    readReg (small 0#32 0#32 []) ((0x8FA8FFFC#32 : Word).extractLsb' 21 5) = .error (.regFault 29#5) := by decide
theorem witness_FrameOfEveryInstruction_alu : ∃ t, exec (.slti 8 9 1) (small 0#32 0#32 []) = .next t :=
  next_of_completes (by decide)
theorem witness_FrameOfEveryInstruction_branch : ∃ t, exec (.beq 8 9 1) (small 0#32 0#32 []) = .next t :=
  next_of_completes (by decide)
theorem witness_FrameOfEveryInstruction_load : ∃ t, exec (.lw 8 8 0) atBoundary = .next t :=
  next_of_completes (by decide)
theorem witness_FrameOfEveryInstruction_store : ∃ t, exec (.sw 8 9 0) atBoundary = .next t :=
  next_of_completes (by decide)
theorem witness_StepRunsTheDecodedInstruction :
    (branchAt 0x1109FFFD).pc.toNat % 4 = 0 ∧
    admission (branchAt 0x1109FFFD).params.memAdmit (branchAt 0x1109FFFD).pc .word = none ∧
    (branchAt 0x1109FFFD).mem.read (byteAddress (branchAt 0x1109FFFD).pc 0) = some 0xFD#8 ∧
    (branchAt 0x1109FFFD).mem.read (byteAddress (branchAt 0x1109FFFD).pc 1) = some 0xFF#8 ∧
    (branchAt 0x1109FFFD).mem.read (byteAddress (branchAt 0x1109FFFD).pc 2) = some 0x09#8 ∧
    (branchAt 0x1109FFFD).mem.read (byteAddress (branchAt 0x1109FFFD).pc 3) = some 0x11#8 ∧
    decode (wordOfBytes (branchAt 0x1109FFFD).params.endian 0xFD#8 0xFF#8 0x09#8 0x11#8) =
      .ok (.beq 8 9 0xFFFD) := by decide
theorem witness_FetchFaults_misaligned : ({ State.reset with pc := 2#32 } : State).pc.toNat % 4 ≠ 0 := by decide
theorem witness_FetchFaults_noValue : State.reset.pc.toNat % 4 = 0 ∧
    admission State.reset.params.memAdmit State.reset.pc .word = none ∧
    State.reset.mem.read (byteAddress State.reset.pc 3) = none := by decide
theorem witness_StepKeepsTheInvariant :
    Inv (branchAt 0x1109FFFD) ∧ ∃ t, step (branchAt 0x1109FFFD) = .next t :=
  ⟨⟨by decide, by decide, by decide, by decide⟩, next_of_completes (by decide)⟩
theorem witness_ValuedRegistersStayValued : RegistersValued (State.reset.withFetchWord 32 0x24080005) ∧
    ∃ t, step (State.reset.withFetchWord 32 0x24080005) = .next t :=
  ⟨by unfold RegistersValued; decide, next_of_completes (by decide)⟩
theorem witness_LaunchStateIsTheSpecsTable :
    (fun i : RegIdx => if i = 31#5 then some 7#32 else none) 31#5 = some 7#32 ∧
    (fun i : RegIdx => if i = 31#5 then some 7#32 else none) 1#5 = (none : Option Word) := by decide

/-- Whether a run ends well. -/
def wentWell (r : RunEnd) : Bool :=
  match r with
  | .endedWell _ => true
  | .faulted _ _ => false
  | .refused _ _ => false
  | .unfinished _ => false

theorem witness_RunEndsWellOnlyAtEndPc :
    wentWell (run 4#32 1 (State.reset.withFetchWord 32 0x24080005)) = true := by decide
theorem witness_RunEndsWellOnlyAtEndPc_atOnce : State.reset.pc = 0#32 := by decide
theorem witness_RunEndsWellOnlyAtEndPc_afterAStep : (State.reset.withFetchWord 32 0x24080005).pc ≠ 4#32 ∧
    nextWith (step (State.reset.withFetchWord 32 0x24080005)) (fun t => wentWell (run 4#32 0 t)) = true := by decide

end Sys2Proof.Tests
end

/-! ## The extensions of R12, bit by bit -/

namespace Sys2Proof.Machine

theorem sext32_getLsbD {n : Nat} (v : BitVec n) {k : Nat} (hk : k < 32) :
    (sext32 v).getLsbD k = if k < n then v.getLsbD k else v.msb := by
  rw [sext32, BitVec.getLsbD_signExtend, decide_eq_true hk, Bool.true_and]

theorem zext32_getLsbD {n : Nat} (v : BitVec n) {k : Nat} (hk : k < 32) :
    (zext32 v).getLsbD k = if k < n then v.getLsbD k else false := by
  split
  case isTrue => simp [zext32, hk]
  case isFalse hn => simp [zext32, BitVec.getLsbD_of_ge v k (Nat.le_of_not_lt hn)]

/-- Settles O6: R12 at widths 16 and 8, where the top bit is bit 15 and bit 7. -/
theorem extensionsReplicateOrZeroFill : Obligations.ExtensionsReplicateOrZeroFill := by
  unfold Obligations.ExtensionsReplicateOrZeroFill
  refine ⟨fun v k hk => ⟨?_, zext32_getLsbD v hk⟩, fun v k hk => ⟨?_, zext32_getLsbD v hk⟩⟩
  · rw [sext32_getLsbD v hk, BitVec.msb_eq_getLsbD_last]
  · rw [sext32_getLsbD v hk, BitVec.msb_eq_getLsbD_last]

end Sys2Proof.Machine

/-! ## Register reads and the launch state (10_state.md R21, R22, R35) -/

namespace Sys2Proof.Machine

theorem readReg_of_slot_some {s : State} {i : RegIdx} {v : Word} (hi : i ≠ 0#5)
    (hv : s.regs[i.toNat]'i.isLt = some v) : readReg s i = .ok v := by
  simp [readReg, hi, hv]

theorem readReg_of_slot_none {s : State} {i : RegIdx} (hi : i ≠ 0#5)
    (hv : s.regs[i.toNat]'i.isLt = none) : readReg s i = .error (.regFault i) := by
  simp [readReg, hi, hv]

/-- At launch the slot of a register 1 to 31 is what `REG_INIT` gives it. -/
theorem launch_slot (p : Params) (r : RegIdx → Option Word) (m : Memory) (a : Word) {i : RegIdx} (hi : i ≠ 0#5) :
    (State.launch p r m a).regs[i.toNat]'i.isLt = r i := by
  have hn : i.toNat ≠ 0 := fun e => hi (BitVec.eq_of_toNat_eq e)
  simp only [State.launch, Vector.getElem_ofFn, if_neg hn, BitVec.ofNat_toNat, BitVec.setWidth_eq]

theorem reset_registersValued : RegistersValued State.reset := by
  intro i
  by_cases hi : i = 0#5
  · rw [hi, readReg_zero]; rfl
  · have hv : readReg State.reset i = .ok 0#32 := readReg_of_slot_some hi (launch_slot _ resetRegInit _ _ hi)
    rw [hv]; rfl

/-- Settles O7: a read after a write, split on whether it is of register 0 and of the register written. -/
theorem registerReadAfterWrite : Obligations.RegisterReadAfterWrite := by
  unfold Obligations.RegisterReadAfterWrite
  refine fun s i j v => ⟨writeReg_zero s v, ?_⟩
  by_cases h0 : j = 0#5
  · rw [if_pos h0, h0, readReg_zero]
  by_cases hij : j = i
  · subst hij
    rw [readReg_writeReg_same, if_neg h0, if_neg h0, if_pos rfl]
  · rw [readReg_writeReg_other s v hij, if_neg h0, if_neg hij]

/-- Settles O8: the one fault of a register read, and the slot that brings it about. -/
theorem registerReadFaultsExactlyWithoutValue : Obligations.RegisterReadFaultsExactlyWithoutValue := by
  unfold Obligations.RegisterReadFaultsExactlyWithoutValue
  refine fun s i f => ⟨readReg_error, ?_⟩
  rintro ⟨hi, hv, rfl⟩
  exact readReg_of_slot_none hi hv

/-- Settles O58: the registers from the slots of the launch, the rest field by field. -/
theorem launchStateIsTheSpecsTable : Obligations.LaunchStateIsTheSpecsTable := by
  unfold Obligations.LaunchStateIsTheSpecsTable
  refine ⟨fun p r m a => ⟨readReg_zero _, fun i v hi hv => ?_, fun i hi hv => ?_, rfl, rfl, rfl, rfl, rfl⟩,
    rfl, rfl, rfl, rfl, rfl, rfl⟩
  · exact readReg_of_slot_some hi ((launch_slot p r m a hi).trans hv)
  · exact readReg_of_slot_none hi ((launch_slot p r m a hi).trans hv)

end Sys2Proof.Machine

/-! ## What every completed instruction and every step keep (10_state.md R21 to R23, 42_branch.md R115) -/

namespace Sys2Proof.Machine

/-- `exec_next` by what is written before the latch and the text are committed: the register rt (ALU-immediate
instructions and loads), the pc (branches) or the bytes of one access (stores). -/
theorem exec_writes {i : Instr} {s t : State} (h : exec i s = .next t) :
    ∃ ops u, t = commit i.handler ops u ∧
      ((i.handler.family ≠ .branch ∧ i.handler.family ≠ .store ∧ ∃ v, u = writeReg s i.rt v) ∨
       (i.handler.family = .branch ∧ ∃ p, u = { s with pc := p } ∧
          (p = s.pc ∨ p = s.pc + branchDisp s.params.branchDispMode i.imm)) ∨
       (i.handler.family = .store ∧ ∃ a n bs,
          u = { s with mem := s.mem.writeAll ((accessAddresses a n).zip bs) })) := by
  obtain ⟨a, -, ⟨hf, v, ht⟩ | ⟨hf, p, ht, hp⟩ | ⟨hf, v, ht⟩ | ⟨hf, n, bs, ht⟩⟩ := exec_next h
  · exact ⟨_, _, ht, .inl ⟨by simp [hf], by simp [hf], v, rfl⟩⟩
  · exact ⟨_, _, ht, .inr (.inl ⟨hf, p, rfl, hp⟩)⟩
  · exact ⟨_, _, ht, .inl ⟨by simp [hf], by simp [hf], v, rfl⟩⟩
  · exact ⟨_, _, ht, .inr (.inr ⟨hf, _, n, bs, rfl⟩)⟩

/-- Settles O52, by the three kinds of write an instruction can make. -/
theorem frameOfEveryInstruction : Obligations.FrameOfEveryInstruction := by
  unfold Obligations.FrameOfEveryInstruction
  intro i s t h
  obtain ⟨ops, u, rfl, ⟨hb, hs, v, rfl⟩ | ⟨hf, p, rfl, -⟩ | ⟨hf, a, n, bs, rfl⟩⟩ := exec_writes h
  case inl =>
    refine ⟨fun j hj => ?_, fun hf => absurd hf (not_or.2 ⟨hb, hs⟩), fun _ x => by simp, fun _ => by simp, by simp⟩
    rw [readReg_commit, readReg_writeReg_other s v hj]
  case inr.inl =>
    exact ⟨fun j _ => by simp, fun _ j => by simp, fun _ x => rfl, fun hn => absurd hf hn, rfl⟩
  case inr.inr =>
    exact ⟨fun j _ => by simp, fun _ j => by simp, fun hn => absurd hf hn, fun _ => rfl, rfl⟩

/-! ### The invariant -/

theorem aligned_add {a b : Word} (ha : a.toNat % 4 = 0) (hb : b.toNat % 4 = 0) : (a + b).toNat % 4 = 0 := by
  rw [BitVec.toNat_add]; omega

/-- A branch displacement is a word count shifted left by 2, in both modes (R110, R115). -/
theorem branchDisp_aligned (mode : BranchDispMode) (i : Imm16) : (branchDisp mode i).toNat % 4 = 0 := by
  have shifted (v : Word) : (v <<< 2).toNat % 4 = 0 := by
    rw [BitVec.toNat_shiftLeft, Nat.shiftLeft_eq]; omega
  cases mode
  case sext => exact shifted _
  case raw => exact shifted _

theorem Inv.commit {s : State} (hs : Inv s) (h : Handler) (ops : OperandLatch) : Inv (commit h ops s) :=
  ⟨hs.memCanonical, hs.zeroSlot, hs.pcAligned, hs.stepAligned⟩

theorem Inv.writeReg {s : State} (hs : Inv s) (i : RegIdx) (v : Word) : Inv (writeReg s i v) where
  memCanonical := by simpa using hs.memCanonical
  zeroSlot := (writeReg_zeroSlot s i v).trans hs.zeroSlot
  pcAligned := by simpa using hs.pcAligned
  stepAligned := by simpa using hs.stepAligned

theorem Inv.setPc {s : State} (hs : Inv s) {p : Word} (hp : p.toNat % 4 = 0) : Inv { s with pc := p } :=
  ⟨hs.memCanonical, hs.zeroSlot, hp, hs.stepAligned⟩

theorem Inv.writeAccess {s : State} (hs : Inv s) (a : Word) (n : Width) (bs : List Byte) :
    Inv { s with mem := s.mem.writeAll ((accessAddresses a n).zip bs) } :=
  ⟨wf_writeAccess a n bs hs.memCanonical, hs.zeroSlot, hs.pcAligned, hs.stepAligned⟩

theorem exec_keeps_inv {i : Instr} {s t : State} (hs : Inv s) (h : exec i s = .next t) : Inv t := by
  obtain ⟨ops, u, rfl, ⟨-, -, v, rfl⟩ | ⟨-, p, rfl, hp⟩ | ⟨-, a, n, bs, rfl⟩⟩ := exec_writes h
  case inl => exact (hs.writeReg _ v).commit _ _
  case inr.inl =>
    have hp4 : p.toNat % 4 = 0 := by
      rcases hp with rfl | rfl
      · exact hs.pcAligned
      · exact aligned_add hs.pcAligned (branchDisp_aligned _ _)
    exact (hs.setPc hp4).commit _ _
  case inr.inr => exact (hs.writeAccess a n bs).commit _ _

/-- Settles O55: the instruction keeps the invariant, and so does moving the pc on by `PC_STEP`. -/
theorem stepKeepsTheInvariant : Obligations.StepKeepsTheInvariant := by
  unfold Obligations.StepKeepsTheInvariant
  intro s t hs h
  obtain ⟨i, u, -, hu, rfl⟩ := step_next h
  have hInv : Inv u := exec_keeps_inv hs hu
  exact hInv.setPc (aligned_add hInv.pcAligned hInv.stepAligned)

/-- Settles O56: at reset memory is empty, slot 0 and the pc are zero, and `PC_STEP` is 4. -/
theorem resetMeetsTheInvariant : Obligations.ResetMeetsTheInvariant := by
  unfold Obligations.ResetMeetsTheInvariant
  exact ⟨rfl, rfl, rfl, rfl⟩

/-! ### Registers that hold values -/

theorem exec_keeps_registersValued {i : Instr} {s t : State} (hs : RegistersValued s) (h : exec i s = .next t) :
    RegistersValued t := by
  intro j
  obtain ⟨ops, u, rfl, ⟨-, -, v, rfl⟩ | ⟨-, p, rfl, -⟩ | ⟨-, a, n, bs, rfl⟩⟩ := exec_writes h
  case inl => rw [readReg_commit]; exact writeReg_keeps_value s i.rt j v (hs j)
  case inr.inl => rw [readReg_commit, readReg_setPc]; exact hs j
  case inr.inr => rw [readReg_commit, readReg_setMem]; exact hs j

theorem memRead_error {s : State} {a : Word} {n : Width} {f : Fault} (h : memRead s a n = .error f) :
    ∃ kind, f = .memFault a n kind := by
  rcases memRead_cases s a n with ⟨_, e⟩ | ⟨kind, e⟩ <;> rw [e] at h <;> cases h
  exact ⟨kind, rfl⟩

theorem memWrite_error {s : State} {a : Word} {n : Width} {v : BitVec n.bits} {f : Fault}
    (h : memWrite s a n v = .error f) : ∃ kind, f = .memFault a n kind := by
  rcases memWrite_cases s a n v with ⟨kind, _, e⟩ | ⟨_, e⟩ <;> rw [e] at h <;> cases h
  exact ⟨kind, rfl⟩

/-- Everything an instruction's fault can be: that of reading x[rs] or x[rt], or a `MemFault` (R170). -/
theorem exec_fault {i : Instr} {s : State} {f : Fault} (h : exec i s = .fault f) :
    readReg s i.rs = .error f ∨ readReg s i.rt = .error f ∨ ∃ a n kind, f = .memFault a n kind := by
  rcases exec_shape i with ⟨-, g, e⟩ | ⟨-, c, e⟩ | ⟨-, n, x, e⟩ | ⟨-, n, e⟩
  · rcases aluStep_cases i.handler g i.rs i.rt i.imm s with ⟨_, _, e'⟩ | ⟨_, ha, e'⟩ <;> rw [e, e'] at h <;> cases h
    exact .inl ha
  · rcases branchStep_cases i.handler c i.rs i.rt i.imm s with ⟨_, _, _, _, e'⟩ | ⟨_, ha | ⟨_, _, hb⟩, e'⟩ <;>
      rw [e, e'] at h <;> cases h
    · exact .inl ha
    · exact .inr (.inl hb)
  · rcases loadStep_cases i.handler n x i.rs i.rt i.imm s with ⟨_, _, _, _, e'⟩ | ⟨_, ha | ⟨_, _, hv⟩, e'⟩ <;>
      rw [e, e'] at h <;> cases h
    · exact .inl ha
    · exact .inr (.inr ⟨_, _, memRead_error hv⟩)
  · rcases storeStep_cases i.handler n i.rs i.rt i.imm s with
      ⟨_, _, _, _, _, _, e'⟩ | ⟨_, ha | ⟨_, _, hb | ⟨_, _, hw⟩⟩, e'⟩ <;> rw [e, e'] at h <;> cases h
    · exact .inl ha
    · exact .inr (.inl hb)
    · exact .inr (.inr ⟨_, _, memWrite_error hw⟩)

/-- Everything a step's fault can be: that of the fetch (R55), or that of an instruction (R198). -/
theorem step_fault {s : State} {f : Fault} (h : step s = .fault f) :
    (∃ kind, f = .fetchFault s.pc kind) ∨ ∃ i, exec i s = .fault f := by
  unfold step fetchAndRun at h
  rcases fetch_cases s with ⟨w, -, -, hw⟩ | ⟨kind, hw⟩ <;> rw [hw] at h
  · cases hd : decode w with
    | ok i =>
      simp only [runWord_decode s hd] at h
      cases hx : exec i s <;> rw [hx] at h <;> cases h
      exact .inr ⟨i, hx⟩
    | error e =>
      simp only [runWord_unknown s hd] at h
      cases h
  · cases h; exact .inl ⟨kind, rfl⟩

theorem RegistersValued.readReg_ne_error {s : State} (hs : RegistersValued s) (i : RegIdx) (f : Fault) :
    readReg s i ≠ .error f := fun h => by
  have := hs i
  rw [h] at this
  cases this

/-- Settles O57: a step keeps the values because its instruction does, and its only register reads, of x[rs] and x[rt],
succeed. -/
theorem valuedRegistersStayValued : Obligations.ValuedRegistersStayValued := by
  unfold Obligations.ValuedRegistersStayValued
  refine ⟨reset_registersValued, fun s hs => ⟨fun t h => ?_, fun j h => ?_⟩⟩
  · obtain ⟨i, u, -, hu, rfl⟩ := step_next h
    intro j
    rw [readReg_setPc]
    exact exec_keeps_registersValued hs hu j
  · obtain ⟨_, hf⟩ | ⟨i, hi⟩ := step_fault h
    · cases hf
    obtain hrs | hrt | ⟨_, _, _, hf⟩ := exec_fault hi
    · exact hs.readReg_ne_error _ _ hrs
    · exact hs.readReg_ne_error _ _ hrt
    · cases hf

end Sys2Proof.Machine

/-! ## The byte order of 20_memory.md R44: bytes composed, split, and composed again -/

namespace Sys2Proof

theorem toNat_append_add {m n : Nat} (x : BitVec m) (y : BitVec n) : (x ++ y).toNat = 2 ^ n * x.toNat + y.toNat := by
  rw [BitVec.toNat_append, ← Nat.shiftLeft_add_eq_or_of_lt y.isLt, Nat.shiftLeft_eq, Nat.mul_comm]

theorem valueOfBytes_append_single (bs : List Byte) (b : Byte) :
    valueOfBytes (bs ++ [b]) = valueOfBytes bs + 256 ^ bs.length * b.toNat := by
  induction bs with
  | nil => simp [valueOfBytes]
  | cons c bs ih =>
    simp only [List.cons_append, valueOfBytes, ih, List.length_cons]
    ring

theorem bytesOfValue_succ {m : Nat} (n : Nat) (v : BitVec m) :
    bytesOfValue (n + 1) v = bytesOfValue n v ++ [v.extractLsb' (8 * n) 8] := by
  simp [bytesOfValue, List.range_succ]

@[simp] theorem length_bytesOfValue {m : Nat} (n : Nat) (v : BitVec m) : (bytesOfValue n v).length = n := by
  simp [bytesOfValue]

@[simp] theorem length_splitBytes {m : Nat} (e : Endian) (n : Nat) (v : BitVec m) : (splitBytes e n v).length = n := by
  cases e <;> simp [splitBytes]

theorem valueOfBytes_bytesOfValue {m : Nat} (n : Nat) (v : BitVec m) :
    valueOfBytes (bytesOfValue n v) = v.toNat % 256 ^ n := by
  induction n with
  | zero => simp [bytesOfValue, valueOfBytes, Nat.mod_one]
  | succ n ih =>
    have hbyte : (v.extractLsb' (8 * n) 8).toNat = v.toNat / 256 ^ n % 256 := by
      rw [BitVec.extractLsb'_toNat, Nat.shiftRight_eq_div_pow, Nat.pow_mul]
    rw [bytesOfValue_succ, valueOfBytes_append_single, ih, length_bytesOfValue, hbyte, Nat.mod_pow_succ]

theorem composeBytes_splitBytes {m : Nat} (e : Endian) (n : Nat) (v : BitVec m) :
    composeBytes e (splitBytes e n v) = v.toNat % 256 ^ n := by
  cases e with
  | little => exact valueOfBytes_bytesOfValue n v
  | big =>
    rw [composeBytes, splitBytes, List.reverse_reverse]
    exact valueOfBytes_bytesOfValue n v

/-- An access moves its value whole: its n bytes are its n*8 bits (R40, R44). -/
theorem ofNat_composeBytes_splitBytes (e : Endian) (n : Width) (v : BitVec n.bits) :
    BitVec.ofNat n.bits (composeBytes e (splitBytes e n.bytes v)) = v := by
  have hbits : 256 ^ n.bytes = 2 ^ n.bits := by cases n <;> rfl
  rw [composeBytes_splitBytes, hbits, Nat.mod_eq_of_lt v.isLt, BitVec.ofNat_toNat, BitVec.setWidth_eq]

end Sys2Proof

namespace Sys2Proof.Machine

theorem ofNat_composeBytes_byte (e : Endian) (b : Byte) : BitVec.ofNat 8 (composeBytes e [b]) = b := by
  cases e <;> simp [composeBytes, valueOfBytes]

theorem ofNat_valueOfBytes_half (b0 b1 : Byte) : BitVec.ofNat 16 (valueOfBytes [b0, b1]) = b1 ++ b0 := by
  apply BitVec.eq_of_toNat_eq
  simp only [valueOfBytes, toNat_append_add, BitVec.toNat_ofNat]
  omega

theorem ofNat_valueOfBytes_word (b0 b1 b2 b3 : Byte) :
    BitVec.ofNat 32 (valueOfBytes [b0, b1, b2, b3]) = b3 ++ b2 ++ b1 ++ b0 := by
  apply BitVec.eq_of_toNat_eq
  simp only [valueOfBytes, toNat_append_add, BitVec.toNat_ofNat]
  omega

theorem ofNat_composeBytes_half (e : Endian) (b0 b1 : Byte) :
    BitVec.ofNat 16 (composeBytes e [b0, b1]) = halfOfBytes e b0 b1 := by
  cases e with
  | little => exact ofNat_valueOfBytes_half b0 b1
  | big => exact ofNat_valueOfBytes_half b1 b0

theorem ofNat_composeBytes_word (e : Endian) (b0 b1 b2 b3 : Byte) :
    BitVec.ofNat 32 (composeBytes e [b0, b1, b2, b3]) = wordOfBytes e b0 b1 b2 b3 := by
  cases e with
  | little => exact ofNat_valueOfBytes_word b0 b1 b2 b3
  | big => exact ofNat_valueOfBytes_word b3 b2 b1 b0

end Sys2Proof.Machine

/-! ## Reads and writes of the memory collaborator (20_memory.md R44, R45, R48) -/

namespace Sys2Proof.Machine

theorem toNat_mod_two_eq_zero_iff (a : Word) : a.toNat % 2 = 0 ↔ a.getLsbD 0 = false := by
  simp [BitVec.getLsbD]

theorem toNat_mod_four_eq_zero_iff (a : Word) :
    a.toNat % 4 = 0 ↔ a.getLsbD 0 = false ∧ a.getLsbD 1 = false := by
  have hbit : a.getLsbD 1 = false ↔ a.toNat / 2 % 2 = 0 := by simp [BitVec.getLsbD, Nat.testBit_succ]
  rw [← toNat_mod_two_eq_zero_iff, hbit]
  omega

/-- Settles O25: `a mod n = 0` read off the low bits of the address. -/
theorem defaultAdmission : Obligations.DefaultAdmission := by
  unfold Obligations.DefaultAdmission
  refine fun a => ⟨by simp [admission, Nat.mod_one], ?_, ?_⟩
  · simp only [admission, toNat_mod_two_eq_zero_iff]
  · simp only [admission, toNat_mod_four_eq_zero_iff]

theorem memRead_of_accessRead_ok {s : State} {a : Word} {n : Width} {v : BitVec n.bits}
    (h : accessRead s a n = .ok v) : memRead s a n = .ok v := by
  simp [memRead, h]

/-- An admitted read whose bytes all hold values is their composition. -/
theorem accessRead_of_readAll {s : State} {a : Word} {n : Width} {bs : List Byte}
    (ha : admission s.params.memAdmit a n = none) (hbs : s.mem.readAll (accessAddresses a n) = some bs) :
    accessRead s a n = .ok (BitVec.ofNat n.bits (composeBytes s.params.endian bs)) := by
  simp [accessRead, ha, hbs]

/-- One byte without a value makes an admitted read fault as `access`. -/
theorem accessRead_of_missing_byte {s : State} {a : Word} {n : Width} {k : Nat}
    (ha : admission s.params.memAdmit a n = none) (hk : k < n.bytes) (hb : s.mem.read (byteAddress a k) = none) :
    accessRead s a n = .error .access := by
  have hmem : byteAddress a k ∈ accessAddresses a n := List.mem_map.2 ⟨k, List.mem_range.2 hk, rfl⟩
  simp [accessRead, ha, readAll_none s.mem hmem hb]

theorem memRead_of_missing_byte {s : State} {a : Word} {n : Width} {k : Nat}
    (ha : admission s.params.memAdmit a n = none) (hk : k < n.bytes) (hb : s.mem.read (byteAddress a k) = none) :
    memRead s a n = .error (.memFault a n .access) := by
  simp [memRead, accessRead_of_missing_byte ha hk hb]

theorem byteAddress_zero (a : Word) : byteAddress a 0 = a.toNat := by simp [byteAddress]

theorem accessRead_byte {s : State} {a : Word} {b0 : Byte} (ha : admission s.params.memAdmit a .byte = none)
    (h0 : s.mem.read (byteAddress a 0) = some b0) : accessRead s a .byte = .ok b0 := by
  have hbs : s.mem.readAll (accessAddresses a .byte) = some [b0] := by
    simp [accessAddresses, Memory.readAll, h0]
  rw [accessRead_of_readAll ha hbs, ofNat_composeBytes_byte]

theorem accessRead_half {s : State} {a : Word} {b0 b1 : Byte} (ha : admission s.params.memAdmit a .half = none)
    (h0 : s.mem.read (byteAddress a 0) = some b0) (h1 : s.mem.read (byteAddress a 1) = some b1) :
    accessRead s a .half = .ok (halfOfBytes s.params.endian b0 b1) := by
  have hbs : s.mem.readAll (accessAddresses a .half) = some [b0, b1] := by
    simp [accessAddresses, List.range_succ, Memory.readAll, h0, h1]
  rw [accessRead_of_readAll ha hbs, ofNat_composeBytes_half]

theorem accessRead_word {s : State} {a : Word} {b0 b1 b2 b3 : Byte}
    (ha : admission s.params.memAdmit a .word = none)
    (h0 : s.mem.read (byteAddress a 0) = some b0) (h1 : s.mem.read (byteAddress a 1) = some b1)
    (h2 : s.mem.read (byteAddress a 2) = some b2) (h3 : s.mem.read (byteAddress a 3) = some b3) :
    accessRead s a .word = .ok (wordOfBytes s.params.endian b0 b1 b2 b3) := by
  have hbs : s.mem.readAll (accessAddresses a .word) = some [b0, b1, b2, b3] := by
    simp [accessAddresses, List.range_succ, Memory.readAll, h0, h1, h2, h3]
  rw [accessRead_of_readAll ha hbs, ofNat_composeBytes_word]

/-- Settles O26: one clause for each width, then a missing byte, then a refused access. -/
theorem memReadComposesBytes : Obligations.MemReadComposesBytes := by
  unfold Obligations.MemReadComposesBytes
  refine fun s a => ⟨?byte, ?half, ?word, ?missing, ?refused⟩
  case byte =>
    intro ha b0 h0
    rw [← byteAddress_zero] at h0
    exact memRead_of_accessRead_ok (accessRead_byte ha h0)
  case half =>
    intro ha b0 b1 h0 h1
    rw [← byteAddress_zero] at h0
    exact memRead_of_accessRead_ok (accessRead_half ha h0 h1)
  case word =>
    intro ha b0 b1 b2 b3 h0 h1 h2 h3
    rw [← byteAddress_zero] at h0
    exact memRead_of_accessRead_ok (accessRead_word ha h0 h1 h2 h3)
  case missing => exact fun n k ha hk hb => memRead_of_missing_byte ha hk hb
  case refused => exact fun n kind ha => ⟨memRead_refused ha, fun v => memWrite_refused v ha⟩

/-! ### Read after write -/

/-- Bytes written at distinct addresses read back together. -/
theorem readAll_writeAll_zip (m : Memory) {l : List Nat} {bs : List Byte} (hl : l.Nodup)
    (hlen : bs.length = l.length) : (m.writeAll (l.zip bs)).readAll l = some bs := by
  induction l generalizing m bs with
  | nil => simp [List.length_eq_zero_iff.1 hlen, Memory.readAll]
  | cons x l ih =>
    obtain ⟨hx, hl⟩ := List.nodup_cons.1 hl
    cases bs with
    | nil => simp at hlen
    | cons b bs =>
      have hfirst : ((m.write x b).writeAll (l.zip bs)).read x = some b := by
        rw [read_writeAll_other, read_write_same]
        rintro ⟨y, c⟩ hc rfl
        exact hx (List.of_mem_zip hc).1
      simp [Memory.writeAll, Memory.readAll, hfirst, ih (m.write x b) hl (by simpa using hlen)]

theorem nodup_accessAddresses (a : Word) (n : Width) : (accessAddresses a n).Nodup := by
  have hn : n.bytes ≤ 4 := by cases n <;> decide
  refine List.Nodup.map_on (fun j hj k hk => ?_) List.nodup_range
  exact byteAddress_inj (by rw [List.mem_range] at hj; omega) (by rw [List.mem_range] at hk; omega)

@[simp] theorem length_accessAddresses (a : Word) (n : Width) : (accessAddresses a n).length = n.bytes := by
  simp [accessAddresses]

/-- A read of the access just written answers the value. -/
theorem accessRead_after_memWrite {s t : State} {a : Word} {n : Width} {v : BitVec n.bits}
    (h : memWrite s a n v = .ok t) : accessRead t a n = .ok v := by
  rcases memWrite_cases s a n v with ⟨kind, -, e⟩ | ⟨ha, e⟩ <;> rw [e] at h
  · cases h
  · have ht := Except.ok.inj h
    have hadm : admission t.params.memAdmit a n = none := by rw [← ht]; exact ha
    have hbytes : t.mem.readAll (accessAddresses a n) = some (splitBytes t.params.endian n.bytes v) := by
      rw [← ht]; exact readAll_writeAll_zip s.mem (nodup_accessAddresses a n) (by simp)
    rw [accessRead_of_readAll hadm hbytes, ofNat_composeBytes_splitBytes]

/-- Settles O27: the bytes written are split and composed in one byte order. -/
theorem memReadAfterMemWrite : Obligations.MemReadAfterMemWrite := by
  unfold Obligations.MemReadAfterMemWrite
  exact fun s t a n v h => memRead_of_accessRead_ok (accessRead_after_memWrite h)

end Sys2Proof.Machine

/-! ## Loads and stores that meet in memory (20_memory.md R48, R53) and those that fault (R45) -/

namespace Sys2Proof.Machine

/-- A load whose read succeeds writes the extended value to x[rt] and nothing else (R121). -/
theorem loadStep_writesOnly {s : State} {n : Width} {a : Word} {v : BitVec n.bits} {rs rt : RegIdx} {imm : Imm16}
    (h : Handler) (e : BitVec n.bits → Word) (ha : readReg s rs = .ok a)
    (hv : memRead s (effectiveAddress a imm) n = .ok v) :
    ∃ u, loadStep h n e rs rt imm s = .next u ∧ WritesOnly s u rt (e v) := by
  refine ⟨_, loadStep_ok ha hv, ?_⟩
  constructor
  case result => rw [readReg_commit, readReg_writeReg_same]
  case otherRegisters => intro j hj; rw [readReg_commit, readReg_writeReg_other _ _ hj]
  case pcKept => simp
  case memoryKept => intro x; simp
  case paramsKept => simp

/-- An admitted store completes, keeps every register, and leaves the low bits of x[rt] where a read of the same access
finds them (R127). -/
theorem storeStep_stored {s : State} {n : Width} {a b : Word} {rs rt : RegIdx} {imm : Imm16} (h : Handler)
    (ha : readReg s rs = .ok a) (hb : readReg s rt = .ok b)
    (hadm : admission s.params.memAdmit (effectiveAddress a imm) n = none) :
    ∃ t, storeStep h n rs rt imm s = .next t ∧ SameRegisters s t ∧
      accessRead t (effectiveAddress a imm) n = .ok (b.setWidth n.bits) := by
  rcases memWrite_cases s (effectiveAddress a imm) n (b.setWidth n.bits) with ⟨kind, hk, -⟩ | ⟨-, hw⟩
  · rw [hadm] at hk; cases hk
  · have hread := accessRead_after_memWrite hw
    exact ⟨_, storeStep_ok ha hb hw, fun j => by rw [readReg_commit, readReg_setMem],
      (accessRead_congr rfl rfl rfl _ _).trans hread⟩

/-- Settles O38: the load finds its base unchanged, since a store keeps every register, and reads what was stored. -/
theorem storeThenLoadReturnsTheValue : Obligations.StoreThenLoadReturnsTheValue := by
  unfold Obligations.StoreThenLoadReturnsTheValue
  refine fun s rs rt rd imm a b ha hb => ⟨fun hadm => ?word, fun hadm => ?half, fun hadm => ?byte⟩
  case word =>
    obtain ⟨t, ht, hregs, hread⟩ := storeStep_stored .sw ha hb hadm
    obtain ⟨u, hu, hwu⟩ := loadStep_writesOnly (n := .word) (rt := rd) .lw (fun v => v) ((hregs rs).trans ha)
      (memRead_of_accessRead_ok hread)
    rw [BitVec.setWidth_eq] at hwu
    exact ⟨t, u, ht, hu, hwu⟩
  case half =>
    obtain ⟨t, ht, hregs, hread⟩ := storeStep_stored .sh ha hb hadm
    rw [BitVec.setWidth_eq_extractLsb' (by decide)] at hread
    have hbase := (hregs rs).trans ha
    have hload := memRead_of_accessRead_ok hread
    obtain ⟨u, hu, hwu⟩ := loadStep_writesOnly (rt := rd) .lh (fun x => sext32 x) hbase hload
    obtain ⟨v, hv, hwv⟩ := loadStep_writesOnly (rt := rd) .lhu (fun x => zext32 x) hbase hload
    exact ⟨t, u, v, ht, hu, hwu, hv, hwv⟩
  case byte =>
    obtain ⟨t, ht, hregs, hread⟩ := storeStep_stored .sb ha hb hadm
    rw [BitVec.setWidth_eq_extractLsb' (by decide)] at hread
    have hbase := (hregs rs).trans ha
    have hload := memRead_of_accessRead_ok hread
    obtain ⟨u, hu, hwu⟩ := loadStep_writesOnly (rt := rd) .lb (fun x => sext32 x) hbase hload
    obtain ⟨v, hv, hwv⟩ := loadStep_writesOnly (rt := rd) .lbu (fun x => zext32 x) hbase hload
    exact ⟨t, u, v, ht, hu, hwu, hv, hwv⟩

theorem fetch_of_accessRead {s : State} {w : Word} (hpc : s.pc.toNat % 4 = 0)
    (h : accessRead s s.pc .word = .ok w) : fetch s = .ok w := by
  simp [fetch, hpc, h]

/-- Settles O39: a fetch is a read of the word at the pc, and finds what the store left there. -/
theorem laterFetchSeesAStore : Obligations.LaterFetchSeesAStore := by
  unfold Obligations.LaterFetchSeesAStore
  intro s rs rt imm a b ha hb hadm hpc
  obtain ⟨t, ht, -, hread⟩ := storeStep_stored .sw ha hb hadm
  rw [BitVec.setWidth_eq] at hread
  exact ⟨t, ht, fetch_of_accessRead hpc ((accessRead_congr rfl rfl rfl _ _).trans hread)⟩

theorem loadStep_fault {s : State} {h : Handler} {n : Width} {e : BitVec n.bits → Word} {rs rt : RegIdx}
    {imm : Imm16} {a : Word} {f : Fault} (ha : readReg s rs = .ok a)
    (hv : memRead s (effectiveAddress a imm) n = .error f) : loadStep h n e rs rt imm s = .fault f := by
  simp [loadStep, latchOperands_ok ha, latchOf, hv, bind, Except.bind]

theorem storeStep_fault {s : State} {h : Handler} {n : Width} {rs rt : RegIdx} {imm : Imm16} {a b : Word} {f : Fault}
    (ha : readReg s rs = .ok a) (hb : readReg s rt = .ok b)
    (hw : memWrite s (effectiveAddress a imm) n (b.setWidth n.bits) = .error f) :
    storeStep h n rs rt imm s = .fault f := by
  simp [storeStep, latchOperands_ok ha, latchOf, hb, hw, bind, Except.bind]

theorem admission_of_aligned {p : AdmitPolicy} {a : Word} {n : Width} (hp : p = .aligned)
    (h : a.toNat % n.bytes = 0) : admission p a n = none := by
  simp [hp, admission, h]

theorem admission_of_misaligned {p : AdmitPolicy} {a : Word} {n : Width} (hp : p = .aligned)
    (h : a.toNat % n.bytes ≠ 0) : admission p a n = some .alignment := by
  simp [hp, admission, h]

/-- Settles O42: refused where misaligned; elsewhere admitted, and stopped by the byte without a value. -/
theorem misalignedAndUnvaluedAccessesFault : Obligations.MisalignedAndUnvaluedAccessesFault := by
  unfold Obligations.MisalignedAndUnvaluedAccessesFault
  refine fun s rs rt imm a hp ha => ⟨fun h2 => ?oddHalf, fun h4 => ?oddWord, fun hb => ?noByte,
    fun k hk h2 hb => ?noHalf, fun k hk h4 hb => ?noWord⟩
  case oddHalf =>
    have hadm := admission_of_misaligned (n := .half) hp h2
    exact ⟨loadStep_fault ha (memRead_refused hadm), loadStep_fault ha (memRead_refused hadm),
      fun b hb => storeStep_fault ha hb (memWrite_refused _ hadm)⟩
  case oddWord =>
    have hadm := admission_of_misaligned (n := .word) hp h4
    exact ⟨loadStep_fault ha (memRead_refused hadm), fun b hb => storeStep_fault ha hb (memWrite_refused _ hadm)⟩
  case noByte =>
    have hv := memRead_of_missing_byte (n := .byte) (admission_of_aligned hp (Nat.mod_one _)) Nat.one_pos hb
    exact ⟨loadStep_fault ha hv, loadStep_fault ha hv⟩
  case noHalf =>
    have hv := memRead_of_missing_byte (n := .half) (admission_of_aligned hp h2) hk hb
    exact ⟨loadStep_fault ha hv, loadStep_fault ha hv⟩
  case noWord => exact loadStep_fault ha (memRead_of_missing_byte (n := .word) (admission_of_aligned hp h4) hk hb)

end Sys2Proof.Machine

/-! ## One step from its fetch (20_memory.md R55) -/

namespace Sys2Proof.Machine

theorem step_of_fetch_ok {s : State} {w : Word} {i : Instr} (hf : fetch s = .ok w) (hd : decode w = .ok i) :
    step s = advancePc (exec i s) := by
  simp only [step, fetchAndRun, hf, runWord_decode s hd]

theorem step_of_fetch_error {s : State} {f : Fault} (hf : fetch s = .error f) : step s = .fault f := by
  simp only [step, fetchAndRun, hf]

/-- Settles O53: the four bytes at the pc are the word fetched. -/
theorem stepRunsTheDecodedInstruction : Obligations.StepRunsTheDecodedInstruction := by
  unfold Obligations.StepRunsTheDecodedInstruction
  intro s b0 b1 b2 b3 i hpc ha h0 h1 h2 h3 hd
  rw [step_of_fetch_ok (fetch_of_accessRead hpc (accessRead_word ha h0 h1 h2 h3)) hd]
  cases exec i s <;> rfl

/-- Settles O54: a misaligned pc faults before any read; at an aligned one the missing byte does. -/
theorem fetchFaults : Obligations.FetchFaults := by
  unfold Obligations.FetchFaults
  refine fun s => ⟨fun hpc => step_of_fetch_error ?_, fun k hpc ha hk hb => step_of_fetch_error ?_⟩
  · simp [fetch, hpc]
  · simp [fetch, hpc, accessRead_of_missing_byte ha hk hb]

end Sys2Proof.Machine

/-! ## Words, instructions and bytes (30_encoding.md R60, R61, R65 to R67): decode and encode invert each other -/

namespace Sys2Proof

theorem getLsbD_extractLsb'_sub (w : Word) {start len k : Nat} (hlo : start ≤ k) (hhi : k < start + len) :
    (w.extractLsb' start len).getLsbD (k - start) = w.getLsbD k := by
  rw [BitVec.getLsbD_extractLsb', decide_eq_true (by omega), Bool.true_and, Nat.add_sub_cancel' hlo]

/-- R61 leaves no bit of a word out: the word is its four fields joined. -/
theorem joinFields_fields (w : Word) : joinFields (fieldOpcode w) (fieldRs w) (fieldRt w) (fieldImm w) = w := by
  apply BitVec.eq_of_getLsbD_eq
  intro k hk
  rw [joinFields_bit]
  split_ifs
  case pos => exact getLsbD_extractLsb'_sub w (start := 0) (by omega) (by omega)
  case pos => exact getLsbD_extractLsb'_sub w (by omega) (by omega)
  case pos => exact getLsbD_extractLsb'_sub w (by omega) (by omega)
  case neg => exact getLsbD_extractLsb'_sub w (by omega) (by omega)

theorem decode_of_selectHandler {w : Word} {h : Handler} (hs : selectHandler (fieldOpcode w) = some h) :
    decode w = .ok (h.build (fieldRs w) (fieldRt w) (fieldImm w)) := by
  simp [decode, hs]

theorem decode_of_selectHandler_none {w : Word} (hs : selectHandler (fieldOpcode w) = none) :
    decode w = .error .notThisBlock := by
  simp [decode, hs]

@[simp] theorem decode_encode (i : Instr) : decode (encode i) = .ok i := by
  rw [decode_of_selectHandler (h := i.handler)] <;> simp [encode]

/-- A word decodes to exactly the instruction it is the word of. -/
theorem decode_eq_ok_iff {w : Word} {i : Instr} : decode w = .ok i ↔ encode i = w := by
  constructor
  · intro hd
    cases hs : selectHandler (fieldOpcode w) with
    | none => rw [decode_of_selectHandler_none hs] at hd; cases hd
    | some h =>
      rw [decode_of_selectHandler hs] at hd
      cases hd
      simp [encode, opcode_of_selectHandler hs, joinFields_fields]
  · rintro rfl
    exact decode_encode i

/-- No term is ill-formed: the types of the fields have the widths of R61 (R67). -/
theorem instr_wellFormed (i : Instr) : i.wellFormed = true := by
  have hfields : i.wellFormed =
      (decide (i.rs.toNat < 32) && decide (i.rt.toNat < 32) && decide (i.imm.toNat < 65536)) := by
    cases i <;> rfl
  rw [hfields, decide_eq_true i.rs.isLt, decide_eq_true i.rt.isLt, decide_eq_true i.imm.isLt]
  rfl

/-- The decoder takes the first four bytes and leaves the others (R60). -/
theorem decodeBytes_append {e : Endian} {bs : List Byte} {i : Instr} (rest : List Byte) (hl : bs.length = 4)
    (hd : decode (BitVec.ofNat 32 (composeBytes e bs)) = .ok i) : decodeBytes e (bs ++ rest) = .ok (i, rest) := by
  match bs, hl with
  | [b0, b1, b2, b3], _ => simp [decodeBytes, hd]

theorem decodeBytes_encodeBytes (e : Endian) (i : Instr) (rest : List Byte) :
    decodeBytes e (encodeBytes e i ++ rest) = .ok (i, rest) := by
  apply decodeBytes_append rest (length_splitBytes e 4 (encode i))
  rw [ofNat_composeBytes_splitBytes e .word (encode i), decode_encode]

/-- Settles O1: the fields of the joined word are the fields joined, and four bytes carry the word whole. -/
theorem decodeOfEncodeIsIdentity : Obligations.DecodeOfEncodeIsIdentity :=
  fun i => ⟨instr_wellFormed i, decode_encode i, fun e rest => decodeBytes_encodeBytes e i rest⟩

/-- Settles O2: the word is its fields joined, and the selected handler has the opcode of the field. -/
theorem encodeOfDecodeIsIdentity : Obligations.EncodeOfDecodeIsIdentity :=
  fun _ _ => decode_eq_ok_iff.mp

/-- Settles O3: the word is the one joined from the fields, bit by bit. -/
theorem decodedFieldsAreTheWordsBits : Obligations.DecodedFieldsAreTheWordsBits := by
  intro w i hd
  obtain rfl := decode_eq_ok_iff.mp hd
  refine ⟨fun k hk => ?imm, fun k hk => ?rt, fun k hk => ?rs, fun k hk => ?opcode⟩ <;> rw [encode, joinFields_bit]
  case imm => rw [if_pos hk]
  case rt => rw [if_neg (by omega), if_pos (by omega), Nat.add_sub_cancel_left]
  case rs => rw [if_neg (by omega), if_neg (by omega), if_pos (by omega), Nat.add_sub_cancel_left]
  case opcode => rw [if_neg (by omega), if_neg (by omega), if_neg (by omega), Nat.add_sub_cancel_left]

/-- Settles O4: a word decodes to the instruction whose word it is; no handler has opcode 0x3F or 0x00. -/
theorem specWordsDecode : Obligations.SpecWordsDecode := by
  refine ⟨?lui, ?addiu, ?bne, ?lw, ?sw, ?top, ?zero⟩
  case lui | addiu | bne | lw | sw => exact decode_eq_ok_iff.mpr (by decide)
  case top | zero => exact decode_of_selectHandler_none (by decide)

end Sys2Proof

/-! ## Words and invocations that are refused (30_encoding.md R66, 60_exceptions.md R181) -/

namespace Sys2Proof

theorem fieldOpcode_toNat (w : Word) : (fieldOpcode w).toNat = w.toNat / 2 ^ 26 := by
  rw [fieldOpcode, BitVec.extractLsb'_toNat, Nat.shiftRight_eq_div_pow]
  have := w.isLt
  omega

/-- The list of R65 and the handlers' opcodes are the same values, over all 64 of the field. -/
theorem opcodeValues_contains (o : BitVec 6) : opcodeValues.contains o.toNat = (selectHandler o).isSome := by
  revert o
  decide

theorem wellFormed_eq_isSome_selectHandler (w : Word) : w.wellFormed = (selectHandler (fieldOpcode w)).isSome := by
  rw [Word.wellFormed, ← fieldOpcode_toNat, opcodeValues_contains]

theorem decode_of_wellFormed {w : Word} (h : w.wellFormed = true) : ∃ i, decode w = .ok i := by
  rw [wellFormed_eq_isSome_selectHandler, Option.isSome_iff_exists] at h
  obtain ⟨g, hg⟩ := h
  exact ⟨_, decode_of_selectHandler hg⟩

theorem decode_of_illFormed {w : Word} (h : w.wellFormed = false) : decode w = .error .notThisBlock := by
  rw [wellFormed_eq_isSome_selectHandler, Option.isSome_eq_false_iff, Option.isNone_iff_eq_none] at h
  exact decode_of_selectHandler_none h

end Sys2Proof

namespace Sys2Proof.Machine

theorem invoke_unknown {w : Word} {e : DecodeError} (h : Handler) (s : State) (hd : decode w = .error e) :
    invoke h w s = .refused .notThisBlock := by
  simp [invoke, hd]

theorem invoke_decode {w : Word} {i : Instr} (h : Handler) (s : State) (hd : decode w = .ok i) :
    invoke h w s = if i.handler = h then exec i s else .refused .wrongHandler := by
  simp [invoke, hd]

theorem step_of_fetch_unknown {s : State} {w : Word} {e : DecodeError} (hf : fetch s = .ok w)
    (hd : decode w = .error e) : step s = .refused .notThisBlock := by
  simp [step, fetchAndRun, hf, runWord_unknown s hd, advancePc]

/-- Settles O5: `Word.wellFormed` decides whether the word decodes, and each invocation goes by that. -/
theorem wrongInvocationsAreRefused : Obligations.WrongInvocationsAreRefused := by
  intro w s
  constructor
  · intro hw
    have hd := decode_of_illFormed hw
    refine ⟨runWord_unknown s hd, fun h => invoke_unknown h s hd, fun hf => ?_⟩
    have hstep := step_of_fetch_unknown hf hd
    exact ⟨hstep, fun _ bound hpc => runFrom_refused 0 bound hpc hstep⟩
  · intro hw
    obtain ⟨i, hd⟩ := decode_of_wellFormed hw
    refine ⟨i, hd, runWord_decode s hd, ?own, fun h hne => ?other⟩
    case own => rw [invoke_decode _ s hd, if_pos rfl]
    case other => rw [invoke_decode h s hd, if_neg (Ne.symm hne)]

end Sys2Proof.Machine

/-! ## The operand decoder's faults and its latch (40_operand_decoder.md R80 to R84) -/

namespace Sys2Proof

/-- The fields of a decoded instruction are those of its word (R61). -/
theorem decode_fields {w : Word} {i : Instr} (hd : decode w = .ok i) :
    i.rs = fieldRs w ∧ i.rt = fieldRt w ∧ i.imm = fieldImm w := by
  obtain rfl := decode_eq_ok_iff.mp hd
  simp [encode]

end Sys2Proof

namespace Sys2Proof.Machine

/-! ### `exec_shape` at a known family -/

theorem exec_of_alu {i : Instr} (hf : i.handler.family = .alu) :
    ∃ f, ∀ s, exec i s = aluStep i.handler f i.rs i.rt i.imm s := by
  simpa [hf] using exec_shape i

theorem exec_of_branch {i : Instr} (hf : i.handler.family = .branch) :
    ∃ c, ∀ s, exec i s = branchStep i.handler c i.rs i.rt i.imm s := by
  simpa [hf] using exec_shape i

theorem exec_of_load {i : Instr} (hf : i.handler.family = .load) :
    ∃ n e, ∀ s, exec i s = loadStep i.handler n e i.rs i.rt i.imm s := by
  simpa [hf] using exec_shape i

theorem exec_of_store {i : Instr} (hf : i.handler.family = .store) :
    ∃ n, ∀ s, exec i s = storeStep i.handler n i.rs i.rt i.imm s := by
  simpa [hf] using exec_shape i

/-! ### The two register reads, in the order of R175 -/

/-- The decoder's fault ends every instruction (R84): each executor decodes before it does anything else. -/
theorem exec_of_rs_error {i : Instr} {s : State} {f : Fault} (hrs : readReg s i.rs = .error f) :
    exec i s = .fault f := by
  have hdec := latchOperands_error (rt := i.rt) (imm := i.imm) hrs
  obtain ⟨-, _, e⟩ | ⟨-, _, e⟩ | ⟨-, _, _, e⟩ | ⟨-, _, e⟩ := exec_shape i <;> rw [e]
  · simp [aluStep, hdec, bind, Except.bind]
  · simp [branchStep, hdec, bind, Except.bind]
  · simp [loadStep, hdec, bind, Except.bind]
  · simp [storeStep, hdec, bind, Except.bind]

/-- Branches and stores read x[rt] right after decoding, before any address is formed (R83, R176). -/
theorem exec_of_rt_error {i : Instr} {s : State} {a : Word} {f : Fault}
    (hf : i.handler.family = .branch ∨ i.handler.family = .store) (hrs : readReg s i.rs = .ok a)
    (hrt : readReg s i.rt = .error f) : exec i s = .fault f := by
  rcases hf with hf | hf
  · obtain ⟨c, e⟩ := exec_of_branch hf
    simp [e, branchStep, latchOperands_ok hrs, hrt, bind, Except.bind]
  · obtain ⟨n, e⟩ := exec_of_store hf
    simp [e, storeStep, latchOperands_ok hrs, hrt, bind, Except.bind]

theorem exec_completes_of_alu {i : Instr} {s : State} {a : Word} (hf : i.handler.family = .alu)
    (hrs : readReg s i.rs = .ok a) : ∃ t, exec i s = .next t := by
  obtain ⟨g, e⟩ := exec_of_alu hf
  exact ⟨_, (e s).trans (aluStep_ok hrs)⟩

/-- Past decoding, a load can fault in its memory read alone: it never reads x[rt]. -/
theorem exec_fault_of_load {i : Instr} {s : State} {a : Word} {f : Fault} (hf : i.handler.family = .load)
    (hrs : readReg s i.rs = .ok a) (h : exec i s = .fault f) :
    ∃ n kind, f = .memFault (effectiveAddress a i.imm) n kind := by
  obtain ⟨n, x, e⟩ := exec_of_load hf
  rw [e] at h
  cases hv : memRead s (effectiveAddress a i.imm) n with
  | ok v => rw [loadStep_ok hrs hv] at h; cases h
  | error g => rw [loadStep_fault hrs hv] at h; cases h; exact ⟨n, memRead_error hv⟩

/-- Settles O40: the read of x[rs] faults, and `Decode` comes first in every instruction. -/
theorem rsFaultComesFirst : Obligations.RsFaultComesFirst := by
  unfold Obligations.RsFaultComesFirst
  exact fun i s hi hv => exec_of_rs_error (readReg_of_slot_none hi hv)

/-- Settles O41: branches and stores read x[rt] second; ALU-immediate instructions and loads never read it, so the
former complete and any fault of the latter is a `MemFault`. -/
theorem rtFaultComesSecond : Obligations.RtFaultComesSecond := by
  unfold Obligations.RtFaultComesSecond
  refine fun i s a hrs hi hv => ⟨fun hf => ?reads, fun hf => ?alu, fun hf h => ?load⟩
  case reads => exact exec_of_rt_error hf hrs (readReg_of_slot_none hi hv)
  case alu => exact exec_completes_of_alu hf hrs
  case load =>
    obtain ⟨_, _, hmem⟩ := exec_fault_of_load hf hrs h
    cases hmem

/-! ### The latch -/

/-- Whatever its family, a completed instruction commits the latch of its fields and x[rs] (R32, R80). -/
theorem exec_next_ops {i : Instr} {s t : State} (h : exec i s = .next t) :
    ∃ a, readReg s i.rs = .ok a ∧ t.ops = some (latchOf i.rs i.rt i.imm a) := by
  obtain ⟨a, ha, ⟨-, _, rfl⟩ | ⟨-, _, rfl, -⟩ | ⟨-, _, rfl⟩ | ⟨-, _, _, rfl⟩⟩ := exec_next h <;>
    exact ⟨a, ha, commit_ops _ _ _⟩

/-- Settles O51: the latch of the instruction's fields is that of the word's bits. -/
theorem latchHoldsTheDecodedOperands : Obligations.LatchHoldsTheDecodedOperands := by
  unfold Obligations.LatchHoldsTheDecodedOperands
  intro w i s hd
  obtain ⟨hrs, hrt, himm⟩ := decode_fields hd
  refine ⟨fun a t ha h => ?_, fun f hf => exec_of_rs_error (hrs ▸ hf)⟩
  obtain ⟨b, hb, hops⟩ := exec_next_ops h
  rw [hrs] at hb
  obtain rfl : a = b := Except.ok.inj (ha.symm.trans hb)
  rw [hops, hrs, hrt, himm]
  rfl

end Sys2Proof.Machine

/-! ## ALU-immediate instructions (41_alu_immediate.md) -/

namespace Sys2Proof.Machine

/-! ### One register written, by an executor that all eight share (R90) -/

/-- A register write and a commit keep everything but the register written. -/
theorem commit_writeReg_writesOnly (h : Handler) (ops : OperandLatch) (s : State) (d : RegIdx) (v : Word) :
    WritesOnly s (commit h ops (writeReg s d v)) d v where
  result := by rw [readReg_commit, readReg_writeReg_same]
  otherRegisters j hj := by rw [readReg_commit, readReg_writeReg_other s v hj]
  pcKept := by simp
  memoryKept _ := by simp
  paramsKept := by simp

theorem aluStep_writesOnly {s : State} {f : Word → Imm16 → Word} {rs : RegIdx} {imm : Imm16} {a : Word}
    (h : Handler) (rt : RegIdx) (ha : readReg s rs = .ok a) :
    ∃ t, aluStep h f rs rt imm s = .next t ∧ WritesOnly s t rt (f a imm) :=
  ⟨_, aluStep_ok ha, commit_writeReg_writesOnly h _ s rt _⟩

/-- Each ALU-immediate handler has one operand function, the same for all fields and states. -/
theorem exec_build_of_alu {h : Handler} (hf : h.family = .alu) :
    ∃ f, ∀ rs rt imm s, exec (h.build rs rt imm) s = aluStep h f rs rt imm s :=
  match h, hf with
  | .lui, _ => ⟨_, exec_lui⟩
  | .addi, _ => ⟨_, exec_addi⟩
  | .addiu, _ => ⟨_, exec_addiu⟩
  | .slti, _ => ⟨_, exec_slti⟩
  | .sltiu, _ => ⟨_, exec_sltiu⟩
  | .andi, _ => ⟨_, exec_andi⟩
  | .ori, _ => ⟨_, exec_ori⟩
  | .xori, _ => ⟨_, exec_xori⟩

theorem render_of_alu {h : Handler} (hf : h.family = .alu) (p : Params) (ops : OperandLatch) :
    render h p ops = renderAlu h p ops := by
  rw [render, hf]

/-- The one fault of an ALU-immediate instruction is that of its read of x[rs] (R84, R90). -/
theorem aluStep_fault {h : Handler} {f : Word → Imm16 → Word} {rs rt : RegIdx} {imm : Imm16} {s : State} {e : Fault}
    (he : aluStep h f rs rt imm s = .fault e) : readReg s rs = .error e := by
  obtain ⟨a, -, hn⟩ | ⟨e', hr, hflt⟩ := aluStep_cases h f rs rt imm s
  · rw [hn] at he; cases he
  · rw [hflt] at he; cases he; exact hr

/-- Settles O18: each of the eight is `aluStep` at its own operand function. -/
theorem aluImmediateCommonBehaviour : Obligations.AluImmediateCommonBehaviour := by
  unfold Obligations.AluImmediateCommonBehaviour
  intro h hf
  obtain ⟨f, hexec⟩ := exec_build_of_alu hf
  refine ⟨f, fun s rs rt imm => ⟨fun a ha => ?completes, fun e he => ?faults⟩⟩
  case completes =>
    refine ⟨_, (hexec rs rt imm s).trans (aluStep_ok ha), commit_writeReg_writesOnly h _ s rt _, ?_⟩
    rw [commit_asmText, writeReg_params, render_of_alu hf]
  case faults =>
    have hr := aluStep_fault ((hexec rs rt imm s).symm.trans he)
    exact ⟨(readReg_error hr).2.2, hr⟩

/-! ### The operand functions as arithmetic (R12, R91 to R98) -/

theorem upperHalf_eq_ofNat (i : Imm16) : upperHalf i = BitVec.ofNat 32 (i.toNat * 65536) := by
  apply BitVec.eq_of_toNat_eq
  rw [upperHalf, toNat_append_add, BitVec.toNat_ofNat, BitVec.toNat_ofNat]
  omega

theorem add_sext32_eq_ofInt_toInt (a : Word) (i : Imm16) : a + sext32 i = BitVec.ofInt 32 (a.toInt + i.toInt) := by
  rw [BitVec.ofInt_add, BitVec.ofInt_toInt, sext32, BitVec.signExtend]

theorem add_sext32_eq_ofInt_toNat (a : Word) (i : Imm16) :
    a + sext32 i = BitVec.ofInt 32 (a.toNat + i.toInt) := by
  rw [BitVec.ofInt_add, BitVec.ofInt_natCast, BitVec.ofNat_toNat, BitVec.setWidth_eq, sext32, BitVec.signExtend]

theorem sext32_toInt (i : Imm16) : (sext32 i).toInt = i.toInt :=
  BitVec.toInt_signExtend_of_le (by decide)

theorem sext32_toNat (i : Imm16) :
    (sext32 i).toNat = if i.toNat < 0x8000 then i.toNat else i.toNat + 0xFFFF0000 := by
  have hw : i.toNat % 2 ^ 32 = i.toNat := Nat.mod_eq_of_lt (by omega)
  have hmsb : i.msb = decide (0x8000 ≤ i.toNat) := BitVec.msb_eq_decide i
  rw [sext32, BitVec.toNat_signExtend, BitVec.toNat_setWidth, hw, hmsb]
  by_cases hi : i.toNat < 0x8000
  · simp [hi]
  · simp [hi, Nat.le_of_not_lt hi]

theorem setLessSigned_sext32 (a : Word) (i : Imm16) :
    setLessSigned a (sext32 i) = if a.toInt < i.toInt then 1#32 else 0#32 := by
  simp only [setLessSigned, comparisonResult, sext32_toInt, decide_eq_true_eq]

theorem setLessUnsigned_sext32 (a : Word) (i : Imm16) :
    setLessUnsigned a (sext32 i) =
      if a.toNat < (if i.toNat < 0x8000 then i.toNat else i.toNat + 0xFFFF0000) then 1#32 else 0#32 := by
  simp only [setLessUnsigned, comparisonResult, sext32_toNat, decide_eq_true_eq]

theorem zext32_eq_ofNat (i : Imm16) : zext32 i = BitVec.ofNat 32 i.toNat := (BitVec.ofNat_toNat 32 i).symm

theorem and_zext32 (a : Word) (i : Imm16) : a &&& zext32 i = BitVec.ofNat 32 (a.toNat &&& i.toNat) := by
  rw [BitVec.ofNat_and, zext32_eq_ofNat, BitVec.ofNat_toNat 32 a, BitVec.setWidth_eq]

theorem or_zext32 (a : Word) (i : Imm16) : a ||| zext32 i = BitVec.ofNat 32 (a.toNat ||| i.toNat) := by
  rw [BitVec.ofNat_or, zext32_eq_ofNat, BitVec.ofNat_toNat 32 a, BitVec.setWidth_eq]

theorem xor_zext32 (a : Word) (i : Imm16) : a ^^^ zext32 i = BitVec.ofNat 32 (a.toNat ^^^ i.toNat) := by
  rw [BitVec.ofNat_xor, zext32_eq_ofNat, BitVec.ofNat_toNat 32 a, BitVec.setWidth_eq]

/-! ### The result of each -/

/-- Settles O9: the upper half of a word is the field times 2^16. -/
theorem luiResult : Obligations.LuiResult := by
  unfold Obligations.LuiResult
  intro s rs rt imm a ha
  rw [exec_lui, ← upperHalf_eq_ofNat]
  exact aluStep_writesOnly .lui rt ha

/-- Settles O10: addition wraps as the sum of signed values does. -/
theorem addiResult : Obligations.AddiResult := by
  unfold Obligations.AddiResult
  intro s rs rt imm a ha
  rw [exec_addi, ← add_sext32_eq_ofInt_toInt]
  exact aluStep_writesOnly .addi rt ha

/-- Settles O11: the operand may as well be read unsigned, since the sum is taken modulo 2^32. -/
theorem addiuResult : Obligations.AddiuResult := by
  unfold Obligations.AddiuResult
  intro s rs rt imm a ha
  rw [exec_addiu, ← add_sext32_eq_ofInt_toNat]
  exact aluStep_writesOnly .addiu rt ha

/-- Settles O12: sign extension keeps the signed value. -/
theorem sltiResult : Obligations.SltiResult := by
  unfold Obligations.SltiResult
  intro s rs rt imm a ha
  rw [exec_slti, ← setLessSigned_sext32]
  exact aluStep_writesOnly .slti rt ha

/-- Settles O13: sign extension adds 0xFFFF0000 to the unsigned value from 0x8000 on. -/
theorem sltiuResult : Obligations.SltiuResult := by
  unfold Obligations.SltiuResult
  intro s rs rt imm a ha
  rw [exec_sltiu, ← setLessUnsigned_sext32]
  exact aluStep_writesOnly .sltiu rt ha

/-- Settles O14: the high half of the zero-extended field clears the high half of the result. -/
theorem andiResult : Obligations.AndiResult := by
  unfold Obligations.AndiResult
  intro s rs rt imm a ha
  rw [exec_andi, ← and_zext32]
  exact aluStep_writesOnly .andi rt ha

/-- Settles O15: the high half of the zero-extended field adds no bit. -/
theorem oriResult : Obligations.OriResult := by
  unfold Obligations.OriResult
  intro s rs rt imm a ha
  rw [exec_ori, ← or_zext32]
  exact aluStep_writesOnly .ori rt ha

/-- Settles O16: the high half of the zero-extended field flips no bit. -/
theorem xoriResult : Obligations.XoriResult := by
  unfold Obligations.XoriResult
  intro s rs rt imm a ha
  rw [exec_xori, ← xor_zext32]
  exact aluStep_writesOnly .xori rt ha

/-- Settles O17: the two have one operand function, and what they commit differs in the text alone. -/
theorem addiAndAddiuAgree : Obligations.AddiAndAddiuAgree := by
  unfold Obligations.AddiAndAddiuAgree
  intro s rs rt imm
  cases ha : readReg s rs with
  | ok a =>
    exact .inl ⟨_, _, (exec_addi ..).trans (aluStep_ok ha), (exec_addiu ..).trans (aluStep_ok ha), rfl, rfl, rfl⟩
  | error f => exact .inr ⟨f, exec_of_rs_error ha, exec_of_rs_error ha⟩

end Sys2Proof.Machine

/-! ## Branches (42_branch.md) -/

namespace Sys2Proof

theorem Handler.family_eq_branch_iff (h : Handler) : h.family = .branch ↔ h = .beq ∨ h = .bne := by
  cases h <;> simp [Handler.family]

end Sys2Proof

namespace Sys2Proof.Machine

/-! ### The displacement (R110) -/

/-- Shifting a signed value left by 2 multiplies it by 4 while the product stays a signed word. -/
theorem toInt_shiftLeft_two {v : Word} (hlo : -2 ^ 29 ≤ v.toInt) (hhi : v.toInt < 2 ^ 29) :
    (v <<< 2).toInt = 4 * v.toInt := by
  have hfour : (BitVec.twoPow 32 2).toInt = 4 := by decide
  rw [BitVec.shiftLeft_eq_mul_twoPow, BitVec.toInt_mul, hfour, mul_comm]
  exact Int.bmod_eq_of_le (by omega) (by omega)

/-- Settles O19: an extended field is small enough that the shift drops no significant bit. -/
theorem branchDisplacementOfEachMode : Obligations.BranchDisplacementOfEachMode := by
  unfold Obligations.BranchDisplacementOfEachMode
  intro i
  constructor
  case left =>
    have hlo : -2 ^ 15 ≤ i.toInt := BitVec.le_toInt i
    have hhi : i.toInt < 2 ^ 15 := BitVec.toInt_lt
    have hi : (sext32 i).toInt = i.toInt := sext32_toInt i
    rw [branchDisp, toInt_shiftLeft_two (by omega) (by omega), hi]
  case right =>
    have hi : i.toNat < 2 ^ 16 := i.isLt
    rw [branchDisp, BitVec.toNat_shiftLeft, Nat.shiftLeft_eq, zext32, BitVec.toNat_setWidth]
    omega

/-! ### The two branches (R111, R112) -/

@[simp] theorem wordsEqual_iff (a b : Word) : wordsEqual a b = true ↔ a = b := beq_iff_eq
@[simp] theorem wordsDiffer_iff (a b : Word) : wordsDiffer a b = true ↔ a ≠ b := bne_iff_ne

/-- A branch completes once both registers are read, and changes the pc alone (R111, R112). -/
theorem branchStep_movesPcOnly {s : State} {rs rt : RegIdx} {a b : Word} (h : Handler) (c : Word → Word → Bool)
    (imm : Imm16) (ha : readReg s rs = .ok a) (hb : readReg s rt = .ok b) :
    ∃ t, branchStep h c rs rt imm s = .next t ∧
      MovesPcOnly s t (if c a b then s.pc + branchDisp s.params.branchDispMode imm else s.pc) :=
  ⟨_, branchStep_ok ha hb, rfl, fun _ => by simp, fun _ => rfl, rfl⟩

/-- Settles O20: the branch whose condition is equality. -/
theorem beqResult : Obligations.BeqResult := by
  unfold Obligations.BeqResult
  intro s rs rt imm a b ha hb
  simpa only [exec_beq, wordsEqual_iff] using branchStep_movesPcOnly .beq wordsEqual imm ha hb

/-- Settles O21: the branch whose condition is inequality. -/
theorem bneResult : Obligations.BneResult := by
  unfold Obligations.BneResult
  intro s rs rt imm a b ha hb
  simpa only [exec_bne, wordsDiffer_iff, ne_eq, ite_not] using branchStep_movesPcOnly .bne wordsDiffer imm ha hb

section

variable {i : Instr} {s t : State} {a b : Word}

theorem exec_of_beq (hi : i.handler = .beq) (ha : readReg s i.rs = .ok a) (hb : readReg s i.rt = .ok b) :
    ∃ t, exec i s = .next t ∧
      MovesPcOnly s t (if a = b then s.pc + branchDisp s.params.branchDispMode i.imm else s.pc) :=
  match i, hi, ha, hb with
  | .beq rs rt imm, _, ha, hb => beqResult s rs rt imm a b ha hb

theorem exec_of_bne (hi : i.handler = .bne) (ha : readReg s i.rs = .ok a) (hb : readReg s i.rt = .ok b) :
    ∃ t, exec i s = .next t ∧
      MovesPcOnly s t (if a = b then s.pc else s.pc + branchDisp s.params.branchDispMode i.imm) :=
  match i, hi, ha, hb with
  | .bne rs rt imm, _, ha, hb => bneResult s rs rt imm a b ha hb

theorem pc_of_exec_movesPcOnly {p : Word} (h : exec i s = .next t)
    (hm : ∃ u, exec i s = .next u ∧ MovesPcOnly s u p) : t.pc = p := by
  obtain ⟨u, hu, hp⟩ := hm
  cases h.symm.trans hu
  exact hp.pcOut

/-- The fetch loop adds `PC_STEP` to the `pc_out` of an instruction that moves the pc alone (R27). -/
theorem step_of_exec_movesPcOnly {w p : Word} (hf : fetch s = .ok w) (hd : decode w = .ok i)
    (hm : ∃ t, exec i s = .next t ∧ MovesPcOnly s t p) :
    ∃ t, step s = .next t ∧ t.pc = p + s.params.pcStep := by
  obtain ⟨u, hu, hp⟩ := hm
  rw [step_of_fetch_ok hf hd, hu]
  exact ⟨_, rfl, congrArg₂ (· + ·.pcStep) hp.pcOut hp.paramsKept⟩

end

/-! ### The pc after each instruction and after a step (R113, R114) -/

/-- Settles O22: the frame keeps the pc outside the branch family, whose two members are beq and bne. -/
theorem onlyTakenBranchesMoveThePc : Obligations.OnlyTakenBranchesMoveThePc := by
  unfold Obligations.OnlyTakenBranchesMoveThePc
  refine fun i s t h => ⟨fun hbeq hbne => ?other, fun a b ha hb => ⟨fun hi => ?beq, fun hi => ?bne⟩⟩
  case other =>
    obtain ⟨-, -, -, hpc, -⟩ := frameOfEveryInstruction i s t h
    exact hpc fun hf => (i.handler.family_eq_branch_iff.mp hf).elim hbeq hbne
  case beq => exact pc_of_exec_movesPcOnly h (exec_of_beq hi ha hb)
  case bne =>
    rw [ite_not]
    exact pc_of_exec_movesPcOnly h (exec_of_bne hi ha hb)

/-- Settles O23: `PC_STEP` and the displacement are added in either order. -/
theorem nextFetchAfterBranch : Obligations.NextFetchAfterBranch := by
  unfold Obligations.NextFetchAfterBranch
  intro s w i a b hf hd ha hb h4
  refine ⟨fun hi => ?beq, fun hi => ?bne⟩
  case beq =>
    simpa only [h4, add_right_comm s.pc 4#32, ite_add] using step_of_exec_movesPcOnly hf hd (exec_of_beq hi ha hb)
  case bne =>
    simpa only [h4, add_right_comm s.pc 4#32, ite_add] using step_of_exec_movesPcOnly hf hd (exec_of_bne hi ha hb)

end Sys2Proof.Machine

/-! ## Loads and stores (43_memory_access.md) -/

namespace Sys2Proof

/-! ### The bytes of a halfword and of a stored value (20_memory.md R44) -/

theorem toInt_append_byte (hi lo : Byte) : (hi ++ lo : BitVec 16).toInt = hi.toInt * 256 + lo.toNat := by
  rw [BitVec.toInt_append, mul_comm]
  rfl

theorem toNat_append_byte (hi lo : Byte) : (hi ++ lo : BitVec 16).toNat = hi.toNat * 256 + lo.toNat := by
  rw [toNat_append_add, mul_comm]
  rfl

/-- The byte that a write of `n` bytes of `v` stores at the access's address plus `k` (R44). -/
def splitByte {m : Nat} (e : Endian) (n : Nat) (v : BitVec m) (k : Nat) : Byte :=
  match e with
  | .little => v.extractLsb' (8 * k) 8
  | .big => v.extractLsb' (8 * (n - 1 - k)) 8

theorem getElem?_bytesOfValue {m n k : Nat} (v : BitVec m) (hk : k < n) :
    (bytesOfValue n v)[k]? = some (v.extractLsb' (8 * k) 8) := by
  simp [bytesOfValue, hk]

theorem getElem?_splitBytes {m n k : Nat} (e : Endian) (v : BitVec m) (hk : k < n) :
    (splitBytes e n v)[k]? = some (splitByte e n v k) := by
  cases e with
  | little => exact getElem?_bytesOfValue v hk
  | big =>
    have hlen := length_bytesOfValue n v
    rw [splitBytes, List.getElem?_reverse (by omega), hlen]
    exact getElem?_bytesOfValue v (by omega)

/-- The bytes stored of a value's low part are those of the value. -/
theorem splitByte_setWidth {m n w k : Nat} (e : Endian) (v : BitVec m) (hw : 8 * n ≤ w) (hk : k < n) :
    splitByte e n (v.setWidth w) k = splitByte e n v k := by
  cases e <;> exact BitVec.extractLsb'_setWidth_of_le (by omega)

end Sys2Proof

namespace Sys2Proof.Machine

/-- Settles O24: the offset is signed, and the sum wraps. -/
theorem effectiveAddressWraps : Obligations.EffectiveAddressWraps := by
  unfold Obligations.EffectiveAddressWraps
  intro a i
  rw [effectiveAddress, add_sext32_eq_ofInt_toNat, BitVec.toNat_ofInt]
  exact Int.toNat_of_nonneg (Int.emod_nonneg _ (by decide))

theorem render_of_memory {h : Handler} (hf : h.family = .load ∨ h.family = .store) (p : Params) (ops : OperandLatch) :
    render h p ops = renderMem h p ops := by
  rcases hf with hf | hf <;> rw [render, hf]

/-! ### The load that all five share (R121) -/

/-- A handler of the load family that runs as `loadStep` is a load of that width and extension. -/
theorem loadsAs_of_exec {h : Handler} {n : Width} {e : BitVec n.bits → Word} (hf : h.family = .load)
    (hx : ∀ rs rt imm s, exec (h.build rs rt imm) s = loadStep h n e rs rt imm s) : LoadsAs h n e := by
  intro s rs rt imm a ha
  rw [hx]
  refine ⟨fun v hv => ⟨_, loadStep_ok ha hv, commit_writeReg_writesOnly h _ s rt _, ?_⟩,
    fun f hv => loadStep_fault ha hv⟩
  rw [commit_asmText, writeReg_params, render_of_memory (.inl hf)]

/-- Settles O36: each of the five is `loadStep` at its own width and extension. -/
theorem loadCommonBehaviour : Obligations.LoadCommonBehaviour := by
  unfold Obligations.LoadCommonBehaviour
  exact ⟨loadsAs_of_exec rfl exec_lb, loadsAs_of_exec rfl exec_lh, loadsAs_of_exec rfl exec_lbu,
    loadsAs_of_exec rfl exec_lhu, loadsAs_of_exec rfl exec_lw⟩

/-! ### The store that all three share (R127) -/

/-- Bytes that are read together are read one by one. -/
theorem map_read_of_readAll {m : Memory} {l : List Nat} {bs : List Byte} (h : m.readAll l = some bs) :
    l.map m.read = bs.map some := by
  induction l generalizing bs with
  | nil => cases h; rfl
  | cons x l ih =>
    unfold Memory.readAll at h
    split at h
    · next b cs hb hcs => cases h; simp [hb, ih hcs]
    · cases h

/-- A write that is done leaves the bytes of its value at its addresses, and changes nothing else (R44, R46). -/
theorem memWrite_storesOnly {s t : State} {a : Word} {n : Width} {v : BitVec n.bits} (h : memWrite s a n v = .ok t) :
    StoresOnly s t a n (splitByte s.params.endian n.bytes v) := by
  rcases memWrite_cases s a n v with ⟨_, -, e⟩ | ⟨-, e⟩ <;> rw [e] at h <;> cases h
  constructor
  case stored =>
    intro k hk
    have hread := map_read_of_readAll (readAll_writeAll_zip s.mem (nodup_accessAddresses a n)
      (bs := splitBytes s.params.endian n.bytes v) (by simp))
    have hbyte := congrArg (·[k]?) hread
    simpa only [accessAddresses, List.getElem?_map, List.getElem?_range hk, getElem?_splitBytes _ _ hk,
      Option.map_some, Option.some.injEq] using hbyte
  case otherBytes =>
    intro x hx
    refine read_writeAll_other _ fun c hc => ?_
    obtain ⟨k, hk, hck⟩ := access_cell_address hc
    exact hck ▸ hx k hk
  case registersKept => exact readReg_setMem s _
  case pcKept => rfl
  case paramsKept => rfl

/-- A handler of the store family that runs as `storeStep` is a store of that width. -/
theorem storesAs_of_exec {h : Handler} {n : Width} (hf : h.family = .store)
    (hx : ∀ rs rt imm s, exec (h.build rs rt imm) s = storeStep h n rs rt imm s) : StoresAs h n := by
  intro s rs rt imm a b ha hb
  have hbits : n.bits ≤ 32 := by cases n <;> decide
  rw [hx, ← BitVec.setWidth_eq_extractLsb' hbits]
  refine ⟨fun u hu => ?completes, fun f hw => storeStep_fault ha hb hw⟩
  case completes =>
    obtain ⟨-, -, hregs, hpc, hparams⟩ := memWrite_storesOnly hu
    refine ⟨_, storeStep_ok ha hb hu, rfl, hregs, hpc, hparams, ?_⟩
    rw [commit_asmText, hparams, render_of_memory (.inr hf)]

/-- Settles O37: each of the three is `storeStep` at its own width. -/
theorem storeCommonBehaviour : Obligations.StoreCommonBehaviour := by
  unfold Obligations.StoreCommonBehaviour
  exact ⟨storesAs_of_exec rfl exec_sb, storesAs_of_exec rfl exec_sh, storesAs_of_exec rfl exec_sw⟩

/-- An admitted store completes, and leaves the low bytes of x[rt] at its addresses. -/
theorem storeStep_storesOnly {s : State} {n : Width} {a b : Word} {rs rt : RegIdx} {imm : Imm16} {bytes : Nat → Byte}
    (h : Handler) (ha : readReg s rs = .ok a) (hb : readReg s rt = .ok b)
    (hadm : admission s.params.memAdmit (effectiveAddress a imm) n = none)
    (hbytes : ∀ k, k < n.bytes → splitByte s.params.endian n.bytes b k = bytes k) :
    ∃ t, storeStep h n rs rt imm s = .next t ∧ StoresOnly s t (effectiveAddress a imm) n bytes := by
  rcases memWrite_cases s (effectiveAddress a imm) n (b.setWidth n.bits) with ⟨_, hk, -⟩ | ⟨-, hw⟩
  · rw [hadm] at hk; cases hk
  · obtain ⟨hstored, hother, hregs, hpc, hparams⟩ := memWrite_storesOnly hw
    have hbits : 8 * n.bytes ≤ n.bits := by cases n <;> decide
    refine ⟨_, storeStep_ok ha hb hw, fun k hk => ?_, hother, hregs, hpc, hparams⟩
    rw [← hbytes k hk, ← splitByte_setWidth s.params.endian b hbits hk]
    exact hstored k hk

/-! ### The result of each load (R122 to R126) -/

theorem sext32_eq_ofInt {n : Nat} (v : BitVec n) : sext32 v = BitVec.ofInt 32 v.toInt := rfl

theorem sext32_halfOfBytes (e : Endian) (b0 b1 : Byte) :
    sext32 (halfOfBytes e b0 b1) =
      match e with
      | .little => BitVec.ofInt 32 (b1.toInt * 256 + b0.toNat)
      | .big => BitVec.ofInt 32 (b0.toInt * 256 + b1.toNat) := by
  rw [sext32_eq_ofInt]
  cases e with
  | little => rw [halfOfBytes, toInt_append_byte]
  | big => rw [halfOfBytes, toInt_append_byte]

theorem zext32_halfOfBytes (e : Endian) (b0 b1 : Byte) :
    zext32 (halfOfBytes e b0 b1) =
      match e with
      | .little => BitVec.ofNat 32 (b1.toNat * 256 + b0.toNat)
      | .big => BitVec.ofNat 32 (b0.toNat * 256 + b1.toNat) := by
  rw [zext32, ← BitVec.ofNat_toNat]
  cases e with
  | little => rw [halfOfBytes, toNat_append_byte]
  | big => rw [halfOfBytes, toNat_append_byte]

/-- Settles O28: sign extension keeps the signed value of the byte. -/
theorem lbResult : Obligations.LbResult := by
  unfold Obligations.LbResult
  intro s rs rt imm a b0 ha hadm h0
  rw [exec_lb, ← sext32_eq_ofInt]
  exact loadStep_writesOnly .lb (fun v => sext32 v) ha (memRead_of_accessRead_ok (accessRead_byte hadm h0))

/-- Settles O29: zero extension keeps the unsigned value of the byte. -/
theorem lbuResult : Obligations.LbuResult := by
  unfold Obligations.LbuResult
  intro s rs rt imm a b0 ha hadm h0
  rw [exec_lbu, BitVec.ofNat_toNat]
  exact loadStep_writesOnly .lbu (fun v => zext32 v) ha (memRead_of_accessRead_ok (accessRead_byte hadm h0))

/-- Settles O30: the high byte carries the sign, and the byte order says which of the two it is. -/
theorem lhResult : Obligations.LhResult := by
  unfold Obligations.LhResult
  intro s rs rt imm a b0 b1 ha hadm h0 h1
  have hload := loadStep_writesOnly (rt := rt) .lh (fun v => sext32 v) ha
    (memRead_of_accessRead_ok (accessRead_half hadm h0 h1))
  rw [sext32_halfOfBytes] at hload
  exact hload

/-- Settles O31: as for lh, with both bytes unsigned. -/
theorem lhuResult : Obligations.LhuResult := by
  unfold Obligations.LhuResult
  intro s rs rt imm a b0 b1 ha hadm h0 h1
  have hload := loadStep_writesOnly (rt := rt) .lhu (fun v => zext32 v) ha
    (memRead_of_accessRead_ok (accessRead_half hadm h0 h1))
  rw [zext32_halfOfBytes] at hload
  exact hload

/-- Settles O32: the word read needs no extension. -/
theorem lwResult : Obligations.LwResult := by
  unfold Obligations.LwResult
  intro s rs rt imm a b0 b1 b2 b3 ha hadm h0 h1 h2 h3
  exact loadStep_writesOnly (n := .word) .lw (fun v => v) ha
    (memRead_of_accessRead_ok (accessRead_word hadm h0 h1 h2 h3))

/-! ### The result of each store (R128 to R130) -/

/-- Settles O33: in either byte order the one byte stored is the low one. -/
theorem sbResult : Obligations.SbResult := by
  unfold Obligations.SbResult
  intro s rs rt imm a b ha hb hadm
  refine storeStep_storesOnly .sb ha hb hadm fun k hk => ?_
  obtain rfl : k = 0 := Nat.lt_one_iff.mp hk
  cases s.params.endian <;> rfl

/-- Settles O34: two bytes, the low one at EA + 1 under big. -/
theorem shResult : Obligations.ShResult := by
  unfold Obligations.ShResult
  intro s rs rt imm a b ha hb hadm
  exact storeStep_storesOnly .sh ha hb hadm fun _ _ => rfl

/-- Settles O35: four bytes, the low one at EA + 3 under big. -/
theorem swResult : Obligations.SwResult := by
  unfold Obligations.SwResult
  intro s rs rt imm a b ha hb hadm
  exact storeStep_storesOnly .sw ha hb hadm fun _ _ => rfl

end Sys2Proof.Machine

/-! ## The text of a completed step (44_disassembly.md R150 to R159) -/

namespace Sys2Proof.Machine

/-- Settles O45, handler by handler. -/
theorem mnemonicOfEachHandler : Obligations.MnemonicOfEachHandler := by
  unfold Obligations.MnemonicOfEachHandler
  exact ⟨rfl, rfl, rfl, rfl, rfl, rfl, rfl, rfl, rfl, rfl, rfl, rfl, rfl, rfl, rfl, rfl, rfl, rfl⟩

/-! ### The four digits (R152) -/

/-- The value of a hexadecimal digit of either spelling, as O49 reads it. -/
def digitValue (c : Char) : Nat :=
  if c.toNat < 58 then c.toNat - 48 else if c.toNat < 91 then c.toNat - 55 else c.toNat - 87

@[simp] theorem digitValue_hexDigit : ∀ (upper : Bool) (d : BitVec 4), digitValue (hexDigit upper d) = d.toNat := by
  decide

theorem hexDigit_mem_alphabet : ∀ (upper : Bool) (d : BitVec 4),
    hexDigit upper d ∈ (if upper then "0123456789ABCDEF" else "0123456789abcdef").toList := by
  decide

/-- A 16-bit field is its four nibbles, the most significant first. -/
theorem toNat_eq_nibbles (i : Imm16) :
    16 * (16 * (16 * (i.extractLsb' 12 4).toNat + (i.extractLsb' 8 4).toNat) + (i.extractLsb' 4 4).toNat) +
      (i.extractLsb' 0 4).toNat = i.toNat := by
  simp only [BitVec.extractLsb'_toNat, Nat.shiftRight_eq_div_pow]
  omega

theorem foldl_hexDigits (upper : Bool) (i : Imm16) :
    (hexDigits upper i).foldl (fun n c => 16 * n + digitValue c) 0 = i.toNat := by
  simp only [hexDigits, List.foldl_cons, List.foldl_nil, digitValue_hexDigit, Nat.mul_zero, Nat.zero_add]
  exact toNat_eq_nibbles i

/-- Settles O49: each digit is a nibble of the field, in the alphabet of its spelling. -/
theorem immediateIsFourHexDigits : Obligations.ImmediateIsFourHexDigits := by
  unfold Obligations.ImmediateIsFourHexDigits
  refine fun upper i => ⟨rfl, fun c hc => ?_, foldl_hexDigits upper i⟩
  simp only [hexDigits, List.mem_cons, List.not_mem_nil, or_false] at hc
  obtain rfl | rfl | rfl | rfl := hc <;> exact hexDigit_mem_alphabet upper _

/-! ### What is rendered (R150, R154 to R157) -/

theorem render_of_branch {h : Handler} (hf : h.family = .branch) (p : Params) (ops : OperandLatch) :
    render h p ops = renderAlu h p ops := by
  rw [render, hf]

/-- The renderer shows the fields in the latch and not the value of x[rs] beside them (R150). -/
theorem render_latchOf_value (h : Handler) (p : Params) (rs rt : RegIdx) (imm : Imm16) (a b : Word) :
    render h p (latchOf rs rt imm a) = render h p (latchOf rs rt imm b) := rfl

/-- Whatever its family, a completed instruction commits the rendering of its fields, with any operand value. -/
theorem exec_next_asmText {i : Instr} {s t : State} (h : exec i s = .next t) (a : Word) :
    t.asmText = some (render i.handler s.params (latchOf i.rs i.rt i.imm a)) := by
  obtain ⟨b, -, ⟨-, _, rfl⟩ | ⟨-, _, rfl, -⟩ | ⟨-, _, rfl⟩ | ⟨-, _, _, rfl⟩⟩ := exec_next h <;>
    simp [render_latchOf_value _ _ _ _ _ a b]

/-- Settles O47: the function is the renderer, at any operand value. -/
theorem everyStepRendersFromItsFields : Obligations.EveryStepRendersFromItsFields := by
  unfold Obligations.EveryStepRendersFromItsFields
  refine fun p => ⟨fun h rs rt imm => render h p (latchOf rs rt imm 0#32), ?_⟩
  rintro i s t rfl h
  exact exec_next_asmText h 0#32

theorem renderAlu_of_default {p : Params} (hp : p.asmStyle = defaultAsmStyle) (h : Handler) (ops : OperandLatch) :
    renderAlu h p ops = mnemonic h ++ " " ++ regName p ops.destReg ++ ", " ++ regName p ops.src1Reg ++ ", " ++
      ("0x" ++ String.ofList (hexDigits false ops.immRaw)) := by
  rw [renderAlu, hex4, hp]
  rfl

theorem renderMem_of_default {p : Params} (hp : p.asmStyle = defaultAsmStyle) (h : Handler) (ops : OperandLatch) :
    renderMem h p ops = mnemonic h ++ " " ++ regName p ops.destReg ++ ", " ++
      ("0x" ++ String.ofList (hexDigits false ops.immRaw)) ++ "(" ++ regName p ops.src1Reg ++ ")" := by
  rw [renderMem, hex4, hp]
  rfl

/-- Settles O46: the family selects the form, and the default style spells it. -/
theorem textForms : Obligations.TextForms := by
  unfold Obligations.TextForms
  refine fun i s t h hp => ⟨fun hf => ?alu, fun hf => ?memory⟩ <;> rw [exec_next_asmText h 0#32]
  case alu =>
    have hform : ∀ ops, render i.handler s.params ops = renderAlu i.handler s.params ops :=
      hf.elim (render_of_alu · s.params) (render_of_branch · s.params)
    rw [hform, renderAlu_of_default hp]
    rfl
  case memory =>
    rw [render_of_memory hf, renderMem_of_default hp]
    rfl

/-! ### The first token (R159) -/

theorem space_not_mem_mnemonic (h : Handler) : ' ' ∉ (mnemonic h).toList := by
  cases h <;> decide

theorem render_eq_alu_or_mem (h : Handler) (p : Params) (ops : OperandLatch) :
    render h p ops = renderAlu h p ops ∨ render h p ops = renderMem h p ops := by
  cases hf : h.family with
  | alu => exact .inl (render_of_alu hf p ops)
  | branch => exact .inl (render_of_branch hf p ops)
  | load => exact .inr (render_of_memory (.inl hf) p ops)
  | store => exact .inr (render_of_memory (.inr hf) p ops)

/-- Both forms begin with the mnemonic and the gap. -/
theorem render_begins (h : Handler) (p : Params) (ops : OperandLatch) :
    ∃ rest, (render h p ops).toList = (mnemonic h).toList ++ (p.asmStyle.gap.toList ++ rest) := by
  obtain e | e := render_eq_alu_or_mem h p ops <;> rw [e]
  · simp only [renderAlu, String.toList_append, List.append_assoc]
    exact ⟨_, rfl⟩
  · simp only [renderMem, String.toList_append, List.append_assoc]
    exact ⟨_, rfl⟩

/-- Settles O48: a mnemonic has no space, so the first space of the text is the gap. -/
theorem firstTokenIsTheMnemonic : Obligations.FirstTokenIsTheMnemonic := by
  unfold Obligations.FirstTokenIsTheMnemonic
  intro i s t h hgap
  obtain ⟨rest, htext⟩ := render_begins i.handler s.params (latchOf i.rs i.rt i.imm 0#32)
  have hspace : s.params.asmStyle.gap.toList ++ rest = ' ' :: rest := by rw [hgap]; rfl
  rw [hspace] at htext
  refine ⟨_, exec_next_asmText h 0#32, fun hempty => ?nonempty, ?token⟩
  case nonempty => simp [hempty] at htext
  case token =>
    have hmnemonic : ∀ c ∈ (mnemonic i.handler).toList, decide (c ≠ ' ') = true :=
      fun c hc => decide_eq_true (ne_of_mem_of_not_mem hc (space_not_mem_mnemonic _))
    rw [htext, List.takeWhile_append_of_pos hmnemonic]
    simp

end Sys2Proof.Machine

/-! ## The text never affects execution (44_disassembly.md R158, 70_reset_and_hazards.md R195) -/

namespace Sys2Proof.Machine

section

variable {s t : State}

/-! ### States that agree answer every read alike -/

theorem AgreeOnExecution.readReg_eq (h : AgreeOnExecution s t) (i : RegIdx) : readReg t i = readReg s i :=
  readReg_congr h.regs.symm i

theorem AgreeOnExecution.accessRead_eq (h : AgreeOnExecution s t) (a : Word) (n : Width) :
    accessRead t a n = accessRead s a n :=
  accessRead_congr h.mem.symm h.endian.symm h.memAdmit.symm a n

theorem AgreeOnExecution.memRead_eq (h : AgreeOnExecution s t) (a : Word) (n : Width) :
    memRead t a n = memRead s a n := by
  rw [memRead, memRead, h.accessRead_eq]

theorem AgreeOnExecution.fetch_eq (h : AgreeOnExecution s t) : fetch t = fetch s := by
  rw [fetch, fetch, h.accessRead_eq, h.pc]

/-! ### Every update keeps them in agreement -/

theorem AgreeOnExecution.commit (h : AgreeOnExecution s t) (g : Handler) (ops : OperandLatch) :
    AgreeOnExecution (commit g ops s) (commit g ops t) :=
  { h with }

theorem AgreeOnExecution.setPc (h : AgreeOnExecution s t) {p q : Word} (hpq : p = q) :
    AgreeOnExecution { s with pc := p } { t with pc := q } :=
  { h with pc := hpq }

theorem AgreeOnExecution.setMem (h : AgreeOnExecution s t) {m l : Memory} (hml : m = l) :
    AgreeOnExecution { s with mem := m } { t with mem := l } :=
  { h with mem := hml }

theorem AgreeOnExecution.writeReg (h : AgreeOnExecution s t) (i : RegIdx) (v : Word) :
    AgreeOnExecution (writeReg s i v) (writeReg t i v) := by
  unfold Machine.writeReg
  split
  · exact h
  · exact { h with regs := by rw [h.regs] }

/-- `MemWrite` is refused in both states with one fault, or done in both (R45, R46). -/
theorem AgreeOnExecution.memWrite (h : AgreeOnExecution s t) (a : Word) (n : Width) (v : BitVec n.bits) :
    (∃ f, memWrite s a n v = .error f ∧ memWrite t a n v = .error f) ∨
    (∃ s' t', memWrite s a n v = .ok s' ∧ memWrite t a n v = .ok t' ∧ AgreeOnExecution s' t') := by
  have hadm : admission t.params.memAdmit a n = admission s.params.memAdmit a n := by rw [h.memAdmit]
  obtain ⟨kind, hs, e⟩ | ⟨hs, e⟩ := memWrite_cases s a n v
  · exact .inl ⟨_, e, memWrite_refused v (hadm.trans hs)⟩
  · obtain ⟨kind, ht, -⟩ | ⟨-, e'⟩ := memWrite_cases t a n v
    · rw [hadm, hs] at ht; cases ht
    · exact .inr ⟨_, _, e, e', h.setMem (by rw [h.mem, h.endian])⟩

/-! ### One instruction, and one step -/

theorem SameExecution.of_fault {o o' : Host.Outcome State Fault Refusal} {f : Fault} (h : o = .fault f)
    (h' : o' = .fault f) : SameExecution o o' := by
  rw [h, h']; rfl

theorem SameExecution.of_next {o o' : Host.Outcome State Fault Refusal} (h : o = .next s) (h' : o' = .next t)
    (hst : AgreeOnExecution s t) : SameExecution o o' := by
  rw [h, h']; exact hst

/-- Branches and stores that fault on x[rt] do so in both states (R176). -/
theorem AgreeOnExecution.exec_of_rt_fault (h : AgreeOnExecution s t) {i : Instr} {a : Word} {f : Fault}
    (hf : i.handler.family = .branch ∨ i.handler.family = .store) (hrs : readReg s i.rs = .ok a)
    (hrt : readReg s i.rt = .error f) : SameExecution (exec i s) (exec i t) :=
  .of_fault (exec_of_rt_error hf hrs hrt)
    (exec_of_rt_error hf ((h.readReg_eq _).trans hrs) ((h.readReg_eq _).trans hrt))

/-- Each family's register reads, memory access and committed writes are the same in both states. -/
theorem AgreeOnExecution.exec (h : AgreeOnExecution s t) (i : Instr) : SameExecution (exec i s) (exec i t) := by
  cases hrs : readReg s i.rs with
  | error f => exact .of_fault (exec_of_rs_error hrs) (exec_of_rs_error ((h.readReg_eq _).trans hrs))
  | ok a =>
    have hrs' := (h.readReg_eq _).trans hrs
    obtain ⟨-, f, e⟩ | ⟨hf, c, e⟩ | ⟨-, n, x, e⟩ | ⟨hf, n, e⟩ := exec_shape i
    case inl =>
      exact .of_next ((e s).trans (aluStep_ok hrs)) ((e t).trans (aluStep_ok hrs')) ((h.writeReg _ _).commit _ _)
    case inr.inl =>
      cases hrt : readReg s i.rt with
      | error f => exact h.exec_of_rt_fault (.inl hf) hrs hrt
      | ok b =>
        have hrt' := (h.readReg_eq _).trans hrt
        exact .of_next ((e s).trans (branchStep_ok hrs hrt)) ((e t).trans (branchStep_ok hrs' hrt'))
          ((h.setPc (by rw [h.pc, h.branchDispMode])).commit _ _)
    case inr.inr.inl =>
      cases hv : memRead s (effectiveAddress a i.imm) n with
      | error f =>
        exact .of_fault ((e s).trans (loadStep_fault hrs hv))
          ((e t).trans (loadStep_fault hrs' ((h.memRead_eq _ _).trans hv)))
      | ok v =>
        exact .of_next ((e s).trans (loadStep_ok hrs hv))
          ((e t).trans (loadStep_ok hrs' ((h.memRead_eq _ _).trans hv))) ((h.writeReg _ _).commit _ _)
    case inr.inr.inr =>
      cases hrt : readReg s i.rt with
      | error f => exact h.exec_of_rt_fault (.inr hf) hrs hrt
      | ok b =>
        have hrt' := (h.readReg_eq _).trans hrt
        obtain ⟨f, hw, hw'⟩ | ⟨s', t', hw, hw', h'⟩ :=
          h.memWrite (effectiveAddress a i.imm) n (b.setWidth n.bits)
        · exact .of_fault ((e s).trans (storeStep_fault hrs hrt hw)) ((e t).trans (storeStep_fault hrs' hrt' hw'))
        · exact .of_next ((e s).trans (storeStep_ok hrs hrt hw)) ((e t).trans (storeStep_ok hrs' hrt' hw'))
            (h'.commit _ _)

theorem SameExecution.advancePc {o o' : Host.Outcome State Fault Refusal} (h : SameExecution o o') :
    SameExecution (advancePc o) (advancePc o') :=
  match o, o', h with
  | .next _, .next _, h => AgreeOnExecution.setPc h (by rw [h.pc, h.pcStep])
  | .fault _, .fault _, h => h
  | .refused _, .refused _, h => h

end

/-- Settles O50: both steps fetch one word, and run one instruction or refuse or fault alike. -/
theorem textNeverAffectsExecution : Obligations.TextNeverAffectsExecution := by
  unfold Obligations.TextNeverAffectsExecution
  intro s t h
  cases hf : fetch s with
  | error f => exact .of_fault (step_of_fetch_error hf) (step_of_fetch_error (h.fetch_eq.trans hf))
  | ok w =>
    have hf' := h.fetch_eq.trans hf
    cases hd : decode w with
    | error e => rw [step_of_fetch_unknown hf hd, step_of_fetch_unknown hf' hd]; rfl
    | ok i => rw [step_of_fetch_ok hf hd, step_of_fetch_ok hf' hd]; exact (h.exec i).advancePc

end Sys2Proof.Machine

/-! ## The faults of an instruction and where they come from (60_exceptions.md R170, R171, R173) -/

namespace Sys2Proof.Machine

/-- `exec_fault` with the collaborator named (R173): the fault is the error of one register read, `MemRead` or `MemWrite`,
and only branches and stores read x[rt]. -/
theorem exec_fault_source {i : Instr} {s : State} {f : Fault} (h : exec i s = .fault f) :
    readReg s i.rs = .error f ∨
    ((i.handler.family = .branch ∨ i.handler.family = .store) ∧ readReg s i.rt = .error f) ∨
    ∃ a n, readReg s i.rs = .ok a ∧
      ((i.handler.family = .load ∧ memRead s (effectiveAddress a i.imm) n = .error f) ∨
       (i.handler.family = .store ∧ ∃ v, memWrite s (effectiveAddress a i.imm) n v = .error f)) := by
  cases hrs : readReg s i.rs with
  | error g => rw [exec_of_rs_error hrs] at h; cases h; exact .inl rfl
  | ok a =>
    obtain ⟨hf, -⟩ | ⟨hf, c, e⟩ | ⟨hf, n, x, e⟩ | ⟨hf, n, e⟩ := exec_shape i
    case inl =>
      obtain ⟨t, ht⟩ := exec_completes_of_alu hf hrs
      rw [ht] at h; cases h
    case inr.inl =>
      cases hrt : readReg s i.rt with
      | error g => rw [exec_of_rt_error (.inl hf) hrs hrt] at h; cases h; exact .inr (.inl ⟨.inl hf, rfl⟩)
      | ok b => rw [e, branchStep_ok hrs hrt] at h; cases h
    case inr.inr.inl =>
      cases hv : memRead s (effectiveAddress a i.imm) n with
      | error g => rw [e, loadStep_fault hrs hv] at h; cases h; exact .inr (.inr ⟨a, n, rfl, .inl ⟨hf, hv⟩⟩)
      | ok v => rw [e, loadStep_ok hrs hv] at h; cases h
    case inr.inr.inr =>
      cases hrt : readReg s i.rt with
      | error g => rw [exec_of_rt_error (.inr hf) hrs hrt] at h; cases h; exact .inr (.inl ⟨.inr hf, rfl⟩)
      | ok b =>
        cases hw : memWrite s (effectiveAddress a i.imm) n (b.setWidth n.bits) with
        | error g =>
          rw [e, storeStep_fault hrs hrt hw] at h; cases h
          exact .inr (.inr ⟨a, n, rfl, .inr ⟨hf, _, hw⟩⟩)
        | ok t => rw [e, storeStep_ok hrs hrt hw] at h; cases h

theorem finish_ne_refused (x : Except Fault State) (r : Refusal) : finish x ≠ .refused r := by
  cases x <;> simp

/-- Every executor ends in `finish`, which has no refusal to answer. -/
theorem exec_ne_refused (i : Instr) (s : State) (r : Refusal) : exec i s ≠ .refused r := by
  obtain ⟨-, _, e⟩ | ⟨-, _, e⟩ | ⟨-, _, _, e⟩ | ⟨-, _, e⟩ := exec_shape i <;> rw [e] <;> exact finish_ne_refused _ r

/-- Settles O43: each collaborator has one fault of its own (R170), the two of memory at the address they were given. -/
theorem onlyTheSpecsFaultsAndNoRefusal : Obligations.OnlyTheSpecsFaultsAndNoRefusal := by
  unfold Obligations.OnlyTheSpecsFaultsAndNoRefusal
  refine fun i s => ⟨exec_ne_refused i s, fun f h => ?_⟩
  obtain hrs | ⟨hf, hrt⟩ | ⟨a, n, ha, ⟨hf, hv⟩ | ⟨hf, v, hw⟩⟩ := exec_fault_source h
  · obtain ⟨-, -, e⟩ := readReg_error hrs
    exact .inl e
  · obtain ⟨-, -, e⟩ := readReg_error hrt
    exact .inr (.inl ⟨e, hf⟩)
  · obtain ⟨kind, e⟩ := memRead_error hv
    exact .inr (.inr ⟨.inl hf, a, n, kind, ha, e⟩)
  · obtain ⟨kind, e⟩ := memWrite_error hw
    exact .inr (.inr ⟨.inr hf, a, n, kind, ha, e⟩)

/-! ### The fault of a step and of a run -/

theorem step_of_runWord_fault {s : State} {w : Word} {f : Fault} (hf : fetch s = .ok w) (hr : runWord w s = .fault f) :
    step s = .fault f := by
  simp only [step, fetchAndRun, hf, hr, advancePc]

theorem run_of_step_fault {s : State} {f : Fault} {endPc : Word} (bound : Nat) (hpc : s.pc ≠ endPc)
    (h : step s = .fault f) : run endPc (bound + 1) s = .faulted (faultedState 0 s f) f := by
  simp [run, runFrom, hpc, h]

/-- Of a faulted state the text alone may differ from the state before the step (R160, R173). -/
theorem faultedState_frame (taken : Nat) (s : State) (f : Fault) :
    (faultedState taken s f).regs = s.regs ∧ (faultedState taken s f).mem = s.mem ∧
      (faultedState taken s f).pc = s.pc ∧ (faultedState taken s f).params = s.params := by
  cases f <;> exact ⟨rfl, rfl, rfl, rfl⟩

/-- Settles O44: `exec` passes its collaborator's error on, the fetch loop passes on that of `exec`, and a run stops there. -/
theorem faultsCommitNothingAndPropagate : Obligations.FaultsCommitNothingAndPropagate := by
  unfold Obligations.FaultsCommitNothingAndPropagate
  refine ⟨fun i s f h => ?source, fun s w f hf hr => ?propagates⟩
  case source =>
    obtain hrs | ⟨-, hrt⟩ | ⟨a, n, ha, ⟨-, hv⟩ | ⟨-, hw⟩⟩ := exec_fault_source h
    · exact .inl hrs
    · exact .inr (.inl hrt)
    · exact .inr (.inr ⟨a, n, ha, .inl hv⟩)
    · exact .inr (.inr ⟨a, n, ha, .inr hw⟩)
  case propagates =>
    have hstep := step_of_runWord_fault hf hr
    exact ⟨hstep, fun endPc bound hpc => ⟨_, run_of_step_fault bound hpc hstep, faultedState_frame 0 s f⟩⟩

end Sys2Proof.Machine

/-! ## Good ends of a run (70_reset_and_hazards.md R198) -/

namespace Sys2Proof.Machine

/-- What the loop of a run that ends well did first: it was there, or a step completed and the rest ends well. -/
theorem runFrom_endedWell_cases {endPc : Word} {taken bound : Nat} {s u : State}
    (h : runFrom endPc taken bound s = .endedWell u) :
    (s.pc = endPc ∧ u = s) ∨
      ∃ b t, bound = b + 1 ∧ step s = .next t ∧ runFrom endPc (taken + 1) b t = .endedWell u := by
  by_cases hpc : s.pc = endPc
  · rw [runFrom_atEnd _ _ hpc] at h
    exact .inl ⟨hpc, (RunEnd.endedWell.inj h).symm⟩
  · cases bound with
    | zero => simp [runFrom, hpc] at h
    | succ b =>
      cases hs : step s with
      | next t => exact .inr ⟨b, t, rfl, rfl, by rwa [runFrom_next _ _ hpc hs] at h⟩
      | fault f => rw [runFrom_fault _ _ hpc hs] at h; cases h
      | refused r => rw [runFrom_refused _ _ hpc hs] at h; cases h

theorem coreRun_zero (s : State) : Sys2Proof.core.run 0 s = .next s := rfl

theorem coreRun_succ_of_next {s t : State} (n : Nat) (h : step s = .next t) :
    Sys2Proof.core.run (n + 1) s = Sys2Proof.core.run n t := by
  have hcore : Sys2Proof.core.step s = .next t := h
  simp only [Host.Core.run, hcore]

/-- A good end is at `END_PC`, and completed steps alone lead there. -/
theorem runFrom_endedWell_reached {endPc : Word} {taken bound : Nat} {s t : State}
    (h : runFrom endPc taken bound s = .endedWell t) :
    t.pc = endPc ∧ ∃ n, n ≤ bound ∧ Sys2Proof.core.run n s = .next t := by
  induction bound generalizing s taken with
  | zero =>
    obtain ⟨hpc, rfl⟩ | ⟨_, _, hb, -⟩ := runFrom_endedWell_cases h
    · exact ⟨hpc, 0, Nat.le_refl 0, coreRun_zero _⟩
    · cases hb
  | succ bound ih =>
    obtain ⟨hpc, rfl⟩ | ⟨_, _, hb, hs, hrest⟩ := runFrom_endedWell_cases h
    · exact ⟨hpc, 0, Nat.zero_le _, coreRun_zero _⟩
    · cases hb
      obtain ⟨hpc, n, hn, hrun⟩ := ih hrest
      exact ⟨hpc, n + 1, Nat.succ_le_succ hn, (coreRun_succ_of_next n hs).trans hrun⟩

/-- Settles O59: forward by induction on the bound, back by the loop's equations for a run at `END_PC` and for a
completed step; the count of steps taken does not matter to a good end. -/
theorem runEndsWellOnlyAtEndPc : Obligations.RunEndsWellOnlyAtEndPc := by
  unfold Obligations.RunEndsWellOnlyAtEndPc
  refine ⟨fun _ _ _ _ => runFrom_endedWell_reached, fun _ bound _ => runFrom_atEnd 0 bound,
    fun endPc bound s t u hpc hs h => ?_⟩
  calc run endPc (bound + 1) s = runFrom endPc 1 bound t := runFrom_next 0 bound hpc hs
    _ = .endedWell u := runFrom_endedWell_taken 1 h

end Sys2Proof.Machine
